-- ==== Sys2Proof/Word.lean ====
section
/-! DEFINITION. The two data widths of the machine (00_scope.md rule R7). -/

namespace Sys2Proof

/-- R7: a word is an 8-byte unsigned integer; addresses, instruction fields, `ip`, `sector` and `addr` are words. -/
abbrev Word := BitVec 64

/-- R7: a byte is 8 bits, unsigned. -/
abbrev Byte := BitVec 8

end Sys2Proof
end

