-- ==== Sys2Proof/Config.lean ====
section
/-! DEFINITION. The configuration parameters of 00_scope.md rule R8, and the free answers of the environment (40_move.md
rule R80). The parameters are plain data: a state carries the ones it was launched with (log entry 1). -/

namespace Sys2Proof

/-- R8, `SENTINEL`: the debug-trap source value, the all-ones word (R100). -/
def sentinel : Word := 0xFFFFFFFFFFFFFFFF

/-- R8, `KB_LEN`: keyboard snapshot bytes, fixed. -/
def kbLen : Nat := 16

/-- R8, `DRQ_SIZE`: the two values the spec admits (decision D7, OPEN). -/
inductive DrqSize where
  | packed   -- 17 bytes: two words and one byte
  | padded   -- 24 bytes: the same, padded to the word alignment
deriving DecidableEq, Repr

/-- R8: the configuration parameters. No rule writes one (10_state.md rule R37). -/
structure Config where
  /-- `MAP_START`, OPEN: any word. -/
  mapStart : Word
  /-- `MEM_WORDS`, OPEN: the memory size in words. -/
  memWords : Nat
  /-- `WIDTH`: framebuffer width in pixels. -/
  width : Nat
  /-- `HEIGHT`: framebuffer height in pixels. -/
  height : Nat
  /-- `SECTOR_SIZE`: bytes per disk sector. -/
  sectorSize : Nat
  /-- `DRQ_SIZE`, OPEN: 17 or 24. -/
  drqSize : DrqSize
  /-- `KB_PAD`: value of unused keyboard slots. -/
  kbPad : Byte
  /-- `OFF0_WRITE_STORES`: whether a write to mapped offset 0 also stores its byte. -/
  off0WriteStores : Bool
deriving DecidableEq, Repr

/-- The parameters of `State.reset`: the defaults of R8 where it gives one; for the OPEN ones the values of the spec's
test configuration T (95_test_vectors.md). DESIGN CHOICE, log entry 2, unsafe. -/
def Config.atReset : Config where
  mapStart := 0x10000
  memWords := 256
  width := 600
  height := 400
  sectorSize := 512
  drqSize := .padded
  kbPad := 0x00
  off0WriteStores := false

/-- The answer of the storage to one transaction (40_move.md rule R80 `disk_result`; 42_disk_sequencer.md rule R123). -/
inductive DiskAnswer where
  /-- The storage call succeeds. -/
  | ok
  /-- It fails with a platform code; `torn` is what a failed WRITE leaves in the sector ("any `SECTOR_SIZE` bytes"). -/
  | error (platformCode : Nat) (torn : List Byte)
deriving DecidableEq, Repr, Inhabited

/-- FREE VALUE (R80 `keys`, R143): what `poll_keys()` answers at the `n`-th free draw. No body: nothing constrains it. Log
entry 3. -/
opaque Config.freeKeys : Nat → Option (List Byte)

/-- FREE VALUE (R80 `disk_result`, R123, R124): what the storage answers at the `n`-th free draw. Log entry 3. -/
opaque Config.freeDisk : Nat → DiskAnswer

/-- FREE VALUE (R80 `open`): what `is_open()` answers at the `n`-th free draw. Log entry 3. -/
opaque Config.freeOpen : Nat → Bool

end Sys2Proof
end

