-- ==== Sys2Proof/Syntax.lean ====
section
/-! DEFINITION. The instructions: one constructor per row of spec/opcode_table.json. -/

namespace Sys2Proof

/-- The two rows of the opcode map (30_encoding.md rule R74). -/
inductive Instr where
  /-- DBGTRAP (41_debug_trap.md rule R105): `start` is the field `b`, a main-memory offset; `len` is the field `c`. -/
  | dbgtrap (start len : Word)
  /-- MOVE (40_move.md rule R85): the fields `a` (source address), `b` (destination address), `c` (next `ip`). -/
  | move (src dst next : Word)
deriving DecidableEq, Repr

end Sys2Proof
end

