-- ==== Sys2Proof/WellFormed.lean ====
section
/-! DEFINITION. Which terms of `Instr` are instructions of the machine. -/

namespace Sys2Proof

/-- R72: no MOVE can name source address all-ones; every other operand may take every word value. -/
def Instr.wellFormed : Instr → Bool
  | .dbgtrap _ _ => true
  | .move src _ _ => src != sentinel

end Sys2Proof
end

