-- ==== Sys2Proof/Decode.lean ====
section
/-! DEFINITION. Byte order, the decoder and the encoder (00_scope.md rule R11; 30_encoding.md rules R68 to R74). -/

namespace Sys2Proof

/-- R11: `sum B[k] * 2^(8k)`, the little-endian value of a byte sequence. -/
def leNat : List Byte → Nat
  | [] => 0
  | b :: bs => b.toNat + 256 * leNat bs

/-- R11: the first `n` bytes of a number, least significant first. -/
def bytesLE : Nat → Nat → List Byte
  | 0, _ => []
  | n + 1, v => BitVec.ofNat 8 v :: bytesLE n (v / 256)

/-- R11 `LE64`: the word eight bytes assemble to. -/
def word64 (bs : List Byte) : Word := BitVec.ofNat 64 (leNat bs)

/-- R11 `bytes8`: the eight bytes of a word. -/
def bytes8 (w : Word) : List Byte := bytesLE 8 w.toNat

/-- R68: every instruction is 24 bytes long. -/
def instrBytes : Nat := 24

/-- R71: the decoder is total over all values of the three fields and looks only at `a`. -/
def decodeFields (a b c : Word) : Instr :=
  if a = sentinel then .dbgtrap b c else .move a b c

/-- One row of the opcode map; `mask` and `pattern` are over `I[63:0]`, the field `a` (R74). -/
structure OpcodeRow where
  mnemonic : String
  mask : Word
  pattern : Word
deriving DecidableEq, Repr

/-- R74: the full opcode map, in the order of its priorities. -/
def opcodeMap : List OpcodeRow :=
  [⟨"DBGTRAP", 0xFFFFFFFFFFFFFFFF, 0xFFFFFFFFFFFFFFFF⟩, ⟨"MOVE", 0, 0⟩]

/-- R74: whether a row matches a field `a`. -/
def OpcodeRow.matchesField (r : OpcodeRow) (a : Word) : Bool := (a &&& r.mask) == r.pattern

/-- The mnemonic of an instruction in spec/opcode_table.json. -/
def Instr.mnemonic : Instr → String
  | .dbgtrap _ _ => "DBGTRAP"
  | .move _ _ _ => "MOVE"

/-- Why a byte string is no instruction. No 24-byte value is rejected (R73). -/
inductive DecodeError where
  /-- Fewer than 24 bytes are left (log entry 12). -/
  | truncated (got : Nat)
deriving DecidableEq, Repr

/-- What the decoder reads from a byte string. -/
inductive Decoded where
  | instr (i : Instr) (rest : List Byte)
  | rejected (why : DecodeError)
deriving DecidableEq, Repr

/-- R69: the word at byte `k` of a byte string. -/
def wordAt (bytes : List Byte) (k : Nat) : Word := word64 ((bytes.drop k).take 8)

/-- R68, R69, R71: consume exactly 24 bytes and decode their three fields. -/
def decode (bytes : List Byte) : Decoded :=
  if bytes.length < instrBytes then .rejected (.truncated bytes.length)
  else .instr (decodeFields (wordAt bytes 0) (wordAt bytes 8) (wordAt bytes 16)) (bytes.drop instrBytes)

/-- The three fields of an instruction (R69, R71). -/
def Instr.fields : Instr → Word × Word × Word
  | .dbgtrap start len => (sentinel, start, len)
  | .move src dst next => (src, dst, next)

/-- R69: the 24 bytes of an instruction, `a`, `b`, `c` in turn, each little-endian. -/
def encode (i : Instr) : List Byte :=
  bytes8 i.fields.1 ++ bytes8 i.fields.2.1 ++ bytes8 i.fields.2.2

/-- The instruction a decoded byte string starts with. -/
def Decoded.toOption : Decoded → Option Instr
  | .instr i _ => some i
  | .rejected _ => none

/-- The bytes, in the order memory holds them, of an instruction whose bits are `w`; bits above `nbits` are zero. -/
def tableBytes (nbits w : Nat) : List Byte := bytesLE instrBytes (w % 2 ^ nbits)

/-- The instruction the decoder reads from the bits `w`, numbered as spec/opcode_table.json numbers them. -/
def decodeTableWord (nbits w : Nat) : Option Instr := (decode (tableBytes nbits w)).toOption

end Sys2Proof
end

