-- ==== Sys2Proof/Machine/Layout.lean ====
section
/-! DEFINITION. The derived constants of 00_scope.md rules R8 and R9 ("computed, not stored"), and the layout of the
mapped region (10_state.md rule R26). -/

namespace Sys2Proof

/-- R8: `MEM_SIZE = 8 * MEM_WORDS`. -/
def Config.memSize (c : Config) : Nat := 8 * c.memWords

/-- R8: `DRQ_SIZE`, 17 or 24. -/
def DrqSize.bytes : DrqSize → Nat
  | .packed => 17
  | .padded => 24

/-- R9: `FB_BASE = DRQ_SIZE`. -/
def Config.fbBase (c : Config) : Nat := c.drqSize.bytes

/-- R9: `FB_SIZE = WIDTH * HEIGHT * 4`. -/
def Config.fbSize (c : Config) : Nat := c.width * c.height * 4

/-- R9: `KB_BASE = FB_BASE + FB_SIZE`. -/
def Config.kbBase (c : Config) : Nat := c.fbBase + c.fbSize

/-- R9: `REGION_SIZE = KB_BASE + KB_LEN`. -/
def Config.regionSize (c : Config) : Nat := c.kbBase + kbLen

/-- R26: mapped offset of the word `sector`. -/
def sectorOffset : Nat := 0

/-- R26: mapped offset of the word `addr`. -/
def addrOffset : Nat := 8

/-- R26: mapped offset of the byte `direction`. -/
def directionOffset : Nat := 16

/-- R31, R135: the display column of pixel `i`. -/
def Config.pixelColumn (c : Config) (i : Nat) : Nat := i % c.width

/-- R31, R135: the display row of pixel `i`. -/
def Config.pixelRow (c : Config) (i : Nat) : Nat := i / c.width

end Sys2Proof
end

