-- ==== Sys2Proof/Machine/State.lean ====
section
/-! DEFINITION. The state of the machine (10_state.md), the reasons a step can stop, and the state after reset. -/

namespace Sys2Proof.Machine

/-- Which operand of a MOVE an access belongs to (60_exceptions.md rule R154, "the operand (source or destination)"). -/
inductive Role where
  | source
  | destination
deriving DecidableEq, Repr

/-- R154: the fatal causes, each with the values it records. -/
inductive Fatal where
  | fetchOob (ip : Word)
  | memOob (ip : Word) (operand : Role) (address : Word)
  | mapOob (ip : Word) (operand : Role) (address : Word)
  | dumpOob (ip start len : Word)
  | imageTooLarge (length : Nat)
  | entryOob
  | hostInit
deriving DecidableEq, Repr

/-- R22: why a machine is halted. -/
inductive HaltReason where
  | windowClosed
  | debugTrap (dump : List Byte)
  | fault (cause : Fatal)
deriving DecidableEq, Repr

/-- R22: the run state. -/
inductive RunState where
  | running
  | halted (reason : HaltReason)
deriving DecidableEq, Repr

/-- A byte array held as (index, byte) pairs in the canonical form of `Memory.wf` (Machine/Ops.lean). -/
abbrev Memory := List Host.Cell

/-- R33: the backing store, as (sector index, contents) pairs in the canonical form of `Disk.wf` (Machine/Ops.lean). -/
abbrev Disk := List (Nat × List Byte)

/-- R170 `present(pixels, WIDTH, HEIGHT)`: one frame handed to the display sink; byte `k` of `pixels` is framebuffer byte
`k` (R139). -/
structure Frame where
  width : Nat
  height : Nat
  pixels : Memory
deriving DecidableEq, Repr

/-- R170, R172: the calls the block makes to its host. -/
inductive HostCall where
  | pollKeys
  | present
  | isOpen
  | diskRead
  | diskWrite
deriving DecidableEq, Repr

/-- R171: a host call returns a value, or it never returns. -/
inductive Reply (α : Type) where
  | returns (a : α)
  | hangs
deriving DecidableEq, Repr

/-- The environment's answers still to come (40_move.md rule R80), one queue per call, oldest first, and the count of free
draws, used where a queue is empty. The MODEL's own field: log entries 3 and 4. -/
structure Env where
  /-- Answers of `poll_keys()`, one per cycle. -/
  keys : List (Reply (Option (List Byte)))
  /-- Answers of the storage, one per disk transaction (R82). -/
  disk : List (Reply DiskAnswer)
  /-- Returns of `present`, one per frame. -/
  present : List (Reply Unit)
  /-- Answers of `is_open()`, one per frame. -/
  isOpen : List (Reply Bool)
  /-- How many answers have been taken from the opaque values of Config. -/
  draws : Nat
deriving DecidableEq, Repr

/-- The machine's state: `(ip, run, mem, map, disk)` of R82, the parameters it was launched with, the frames it has
presented (newest first) and the environment's answers. -/
structure State where
  /-- The parameters of R8 (log entry 1). -/
  cfg : Config
  /-- R21: the instruction pointer, a main-memory offset. -/
  ip : Word
  /-- R22: the run state. -/
  run : RunState
  /-- R24: main memory. -/
  mem : Memory
  /-- R25: the mapped region, by mapped offset. -/
  map : Memory
  /-- R33: the backing store. -/
  disk : Disk
  /-- R90, R136: the frames presented so far, newest first (log entry 6). -/
  frames : List Frame
  /-- R36, R80: the environment's answers still to come (log entries 3 and 4). -/
  env : Env
deriving DecidableEq, Repr

/-- Why `step` answers no next state. The machine's own fatal conditions are NOT here: they are next states whose `run` is
halted (R155; log entry 5). -/
inductive Fault where
  /-- Raised by `step` alone, on a machine already halted: "A `Halted` state has no step" (R82, R84). Safe. -/
  | halted (reason : HaltReason)
  /-- Raised by the operation that makes the host call, when the call never returns (R171, 93 U26 "stuck"). It keeps
  the call's name alone; the cycle's earlier effects are dropped (DESIGN CHOICE, log entry 4). Safe. -/
  | neverReturns (call : HostCall)
deriving DecidableEq, Repr

/-- Why the model gives no meaning. -/
inductive Refusal where
  /-- Raised by an arm of `exec` whose instruction has no meaning yet; no arm does. Safe. -/
  | notModelled (mnemonic : String)
deriving DecidableEq, Repr

/-- `ip <- v`. -/
def State.withIp (s : State) (v : Word) : State := { s with ip := v }

/-- `run <- r`. -/
def State.withRun (s : State) (r : RunState) : State := { s with run := r }

/-- `mem <- m`. -/
def State.withMem (s : State) (m : Memory) : State := { s with mem := m }

/-- `map <- m`. -/
def State.withMap (s : State) (m : Memory) : State := { s with map := m }

/-- `disk <- d`. -/
def State.withDisk (s : State) (d : Disk) : State := { s with disk := d }

/-- Record a frame handed to the display sink. -/
def State.withFrame (s : State) (f : Frame) : State := { s with frames := f :: s.frames }

/-- Replace the environment's answers still to come. -/
def State.withEnv (s : State) (e : Env) : State := { s with env := e }

/-- Nothing foreseen: every answer is a free value (log entries 3 and 4). -/
def Env.free : Env where
  keys := []
  disk := []
  present := []
  isOpen := []
  draws := 0

/-- The machine right after reset (10_state.md rule R40; 70_reset_and_hazards.md rules R177 to R180): Running, `ip` the
entry word (0 in zero-filled memory), `mem` and `map` all `0x00`, no frame presented. The parameters, the empty image and
the empty store are launch inputs the model names (log entries 2 and 8); `launch` (Machine/Reset.lean) takes any. -/
def State.reset : State where
  cfg := Config.atReset
  ip := 0
  run := .running
  mem := []
  map := []
  disk := []
  frames := []
  env := Env.free

end Sys2Proof.Machine
end

