-- ==== Sys2Proof/Machine/Ops.lean ====
section
/-! DEFINITION. The named operations over memory, the backing store and the run state (20_memory.md rules R48 to R51, R57;
60_exceptions.md rule R155). -/

namespace Sys2Proof.Machine

/-- The value at a key of sparse data: the first pair with that key, else `d`, what an unlisted key reads as. -/
def readCell {α : Type} (d : α) : List (Nat × α) → Nat → α
  | [], _ => d
  | (k, v) :: cells, a => if a = k then v else readCell d cells a

/-- Write at a key, keeping the canonical form: keys rise, and writing `d` removes the entry. -/
def writeCell {α : Type} [DecidableEq α] (d : α) : List (Nat × α) → Nat → α → List (Nat × α)
  | [], a, v => if v = d then [] else [(a, v)]
  | (k, w) :: cells, a, v =>
    if a < k then (if v = d then (k, w) :: cells else (a, v) :: (k, w) :: cells)
    else if a = k then (if v = d then cells else (a, v) :: cells)
    else (k, w) :: writeCell d cells a v

/-- The canonical form: keys strictly rise from `lo`, and no listed value equals `d`. -/
def canonicalFrom {α : Type} [DecidableEq α] (d : α) : Nat → List (Nat × α) → Bool
  | _, [] => true
  | lo, (k, v) :: cells => decide (lo ≤ k) && decide (v ≠ d) && canonicalFrom d (k + 1) cells

/-- What a byte nothing has written reads as: `0x00` (R24, R25, R40; the spec's decisions D22, D23; log entry 7). -/
def Memory.unlisted : Byte := 0x00

/-- `mem[a]` or `map[a]` (R13). -/
def Memory.read (m : Memory) (a : Nat) : Byte := readCell Memory.unlisted m a

/-- `mem[a] <- v` or `map[a] <- v` (R13). -/
def Memory.write (m : Memory) (a : Nat) (v : Byte) : Memory := writeCell Memory.unlisted m a v

/-- The canonical form of a memory. -/
def Memory.wf (m : Memory) : Bool := canonicalFrom Memory.unlisted 0 m

/-- Every listed index is below `n`, the array's size. -/
def Memory.within (m : Memory) (n : Nat) : Bool := m.all fun cell => decide (cell.1 < n)

/-- R57 `MainReadBlock`: the bytes `m[i .. i+n)`. -/
def Memory.readBlock (m : Memory) : Nat → Nat → List Byte
  | _, 0 => []
  | i, n + 1 => m.read i :: Memory.readBlock m (i + 1) n

/-- R57 `MainWriteBlock`: `m[i+k] <- B[k]` for each `k`. -/
def Memory.writeBlock : Memory → Nat → List Byte → Memory
  | m, _, [] => m
  | m, i, b :: bs => Memory.writeBlock (m.write i b) (i + 1) bs

/-- R11, R41 `LE64(m, i)`: the little-endian word at any byte offset (R43). -/
def Memory.word (m : Memory) (i : Nat) : Word := word64 (m.readBlock i 8)

/-- A sector nothing has written (R33, D13): `n` zero bytes. -/
def zeroSector (n : Nat) : List Byte := List.replicate n 0x00

/-- The first `n` bytes of a sequence, completed with zero bytes: every sector has exactly `SECTOR_SIZE` bytes (R126). -/
def fit : Nat → List Byte → List Byte
  | 0, _ => []
  | n + 1, [] => 0x00 :: fit n []
  | n + 1, b :: bs => b :: fit n bs

/-- R33: the contents of a sector. -/
def Disk.read (d : Disk) (size sector : Nat) : List Byte := fit size (readCell (zeroSector size) d sector)

/-- R33, R121: `disk[sector] <- data`. -/
def Disk.write (d : Disk) (size sector : Nat) (data : List Byte) : Disk :=
  writeCell (zeroSector size) d sector (fit size data)

/-- The canonical form of a backing store: indices are rising words, every listed sector has `size` bytes, not all zero. -/
def Disk.wf (d : Disk) (size : Nat) : Bool :=
  canonicalFrom (zeroSector size) 0 d && d.all fun e => decide (e.2.length = size) && decide (e.1 < 2 ^ 64)

/-- The result of an operation inside a cycle: it completes with a value, it raises a fatal condition in the state reached
so far (R155: earlier effects of the cycle remain), or it is stuck in a host call (R171). The spec gives a stuck cycle no state:
DESIGN CHOICE (log entry 4), `stuck` keeps the call's name and drops the cycle's earlier effects. -/
inductive Res (α : Type) where
  | done (a : α) (s : State)
  | raised (f : Fatal) (s : State)
  | stuck (why : Fault)
deriving DecidableEq, Repr

/-- Do `r`, then `k` if `r` completes (R14: a later step sees the effects of earlier steps). -/
def Res.bind {α β : Type} (r : Res α) (k : α → State → Res β) : Res β :=
  match r with
  | .done a s => k a s
  | .raised f s => .raised f s
  | .stuck w => .stuck w

/-- R13 `halt(reason)`: set the run state. -/
def halt (r : HaltReason) (s : State) : State := s.withRun (.halted r)

/-- R155 `raise Fatal(code)`: `run <- Halted(fault(code))` and nothing else; `ip` still names the instruction. This is the
machine's whole trap entry (R163); there is no return from it (R164). -/
def raiseFatal (f : Fatal) (s : State) : State := halt (.fault f) s

/-- The outcome of an instruction whose operations ended so. -/
def Res.outcome : Res Unit → Host.Outcome State Fault Refusal
  | .done _ s => .next s
  | .raised f s => .next (raiseFatal f s)
  | .stuck w => .fault w

/-- R49 `MainReadByte(i)`; `f` is the fatal record the caller names. -/
def mainReadByte (f : Fatal) (i : Nat) (s : State) : Res Byte :=
  if i + 1 > s.cfg.memSize then .raised f s else .done (s.mem.read i) s

/-- R50 `MainWriteByte(i, v)`. -/
def mainWriteByte (f : Fatal) (i : Nat) (v : Byte) (s : State) : Res Unit :=
  if i + 1 > s.cfg.memSize then .raised f s else .done () (s.withMem (s.mem.write i v))

/-- R51 `MainReadWord(i)`. -/
def mainReadWord (f : Fatal) (i : Nat) (s : State) : Res Word :=
  if i + 8 > s.cfg.memSize then .raised f s else .done (s.mem.word i) s

/-- R48, R57: whether the byte range `[i, i+n)` lies inside main memory, on unbounded integers (R12). -/
def inMain (c : Config) (i n : Nat) : Bool := decide (i + n ≤ c.memSize)

/-- R154: the code of a fatal cause. -/
def Fatal.code : Fatal → Nat
  | .fetchOob _ => 1
  | .memOob _ _ _ => 2
  | .mapOob _ _ _ => 3
  | .dumpOob _ _ _ => 4
  | .imageTooLarge _ => 5
  | .entryOob => 6
  | .hostInit => 7

/-- R174: how the host process ends; the source gives no exit-status numbers. -/
inductive Exit where
  | normal
  | abrupt
deriving DecidableEq, Repr

/-- R174: `window_closed` is a normal termination, a debug trap and every fault an abrupt one. -/
def HaltReason.exit : HaltReason → Exit
  | .windowClosed => .normal
  | .debugTrap _ => .abrupt
  | .fault _ => .abrupt

end Sys2Proof.Machine
end

