-- ==== Sys2Proof/Machine/DebugTrap.lean ====
section
/-! DEFINITION. The debug sentinel (41_debug_trap.md). -/

namespace Sys2Proof.Machine

/-- R105 `DbgTrap(b, c)`: dump `mem[start .. start+len)`, undecoded (R102), into the halt reason (R104) and halt; a range that
leaves main memory is `DUMP_OOB` (R106). Nothing else changes (R103). -/
def execDbgTrap (start len : Word) (s : State) : Host.Outcome State Fault Refusal :=
  if inMain s.cfg start.toNat len.toNat then
    .next (halt (.debugTrap (s.mem.readBlock start.toNat len.toNat)) s)
  else .next (raiseFatal (.dumpOob s.ip start len) s)

end Sys2Proof.Machine
end

