-- ==== Sys2Proof/Machine/Flags.lean ====
section
/-! DEFINITION. The machine has no flags, condition codes or predicates (10_state.md rule R23). Its one status value is the
disk status byte (42_disk_sequencer.md rule R115), computed here. -/

namespace Sys2Proof.Machine

/-- R115: success. -/
def statusOk : Byte := 0

/-- R115: the transfer range is not inside main memory. -/
def statusOverflow : Byte := 255

/-- R115, R123: the platform code when it is in `1 .. 255`, and 255 otherwise; never 0 (D14). -/
def errorStatus (platformCode : Nat) : Byte :=
  if 1 ≤ platformCode ∧ platformCode ≤ 255 then BitVec.ofNat 8 platformCode else 255

end Sys2Proof.Machine
end

