-- ==== Sys2Proof/Machine/HostCalls.lean ====
section
/-! DEFINITION. The answers of the environment (40_move.md rule R80; 60_exceptions.md rules R170 to R172): the head of the
call's queue, or, where the queue is empty, a free value of Config at the draw counter, which then advances (log entries
3 and 4). -/

namespace Sys2Proof.Machine

/-- R170 `poll_keys()`: the answer of the next call. -/
def Env.keysAnswer (e : Env) : Reply (Option (List Byte)) :=
  match e.keys with
  | r :: _ => r
  | [] => .returns (Config.freeKeys e.draws)

/-- The environment after a `poll_keys()` call. -/
def Env.afterKeys (e : Env) : Env :=
  match e.keys with
  | _ :: rest => { e with keys := rest }
  | [] => { e with draws := e.draws + 1 }

/-- R172: the storage's answer to the next transaction. -/
def Env.diskAnswer (e : Env) : Reply DiskAnswer :=
  match e.disk with
  | r :: _ => r
  | [] => .returns (Config.freeDisk e.draws)

/-- The environment after a disk transaction. -/
def Env.afterDisk (e : Env) : Env :=
  match e.disk with
  | _ :: rest => { e with disk := rest }
  | [] => { e with draws := e.draws + 1 }

/-- R170 `present(...)`: whether the next call returns; it gives nothing back. -/
def Env.presentAnswer (e : Env) : Reply Unit :=
  match e.present with
  | r :: _ => r
  | [] => .returns ()

/-- The environment after a `present` call. -/
def Env.afterPresent (e : Env) : Env := { e with present := e.present.tail }

/-- R170 `is_open()`: the answer of the next call. -/
def Env.openAnswer (e : Env) : Reply Bool :=
  match e.isOpen with
  | r :: _ => r
  | [] => .returns (Config.freeOpen e.draws)

/-- The environment after an `is_open()` call. -/
def Env.afterOpen (e : Env) : Env :=
  match e.isOpen with
  | _ :: rest => { e with isOpen := rest }
  | [] => { e with draws := e.draws + 1 }

end Sys2Proof.Machine
end

