-- ==== Sys2Proof/Machine/Disk.lean ====
section
/-! DEFINITION. The disk-request register and the sector I/O sequencer (42_disk_sequencer.md). -/

namespace Sys2Proof.Machine

/-- R27, R113: the field `sector`. -/
def reqSector (s : State) : Word := s.map.word sectorOffset

/-- R27, R113: the field `addr`, a main-memory offset. -/
def reqAddr (s : State) : Word := s.map.word addrOffset

/-- R27, R113: the field `direction`. -/
def reqDirection (s : State) : Byte := s.map.read directionOffset

/-- R119, R122: whether the request's transfer range lies inside main memory. -/
def reqInMain (s : State) : Bool := inMain s.cfg (reqAddr s).toNat s.cfg.sectorSize

/-- R118 to R120: the read path, given the storage's answer. The sector is fetched before the range test, so a storage
error comes first (90_conflicts.md C12). -/
def diskReadPath (answer : Reply DiskAnswer) (s : State) : Res Byte :=
  match answer with
  | .hangs => .stuck (.neverReturns .diskRead)
  | .returns (.error code _) => .done (errorStatus code) s
  | .returns .ok =>
    if reqInMain s then
      .done statusOk (s.withMem
        (s.mem.writeBlock (reqAddr s).toNat (s.disk.read s.cfg.sectorSize (reqSector s).toNat)))
    else .done statusOverflow s

/-- R121 to R123: the write path. The range test comes before any storage access; a failed write leaves any `SECTOR_SIZE`
bytes in the sector. -/
def diskWritePath (answer : Reply DiskAnswer) (s : State) : Res Byte :=
  if reqInMain s then
    match answer with
    | .hangs => .stuck (.neverReturns .diskWrite)
    | .returns .ok =>
      .done statusOk (s.withDisk (s.disk.write s.cfg.sectorSize (reqSector s).toNat
        (s.mem.readBlock (reqAddr s).toNat s.cfg.sectorSize)))
    | .returns (.error code torn) =>
      .done (errorStatus code) (s.withDisk (s.disk.write s.cfg.sectorSize (reqSector s).toNat torn))
  else .done statusOverflow s

/-- R117 `DiskTransaction()`: the `direction` field chooses the path (R112). Each transaction takes one answer of the
storage (R82; log entry 10). It never faults. -/
def diskTransaction (s : State) : Res Byte :=
  if reqDirection s = 0 then diskReadPath s.env.diskAnswer (s.withEnv s.env.afterDisk)
  else diskWritePath s.env.diskAnswer (s.withEnv s.env.afterDisk)

end Sys2Proof.Machine
end

