-- ==== Sys2Proof/Machine/Operands.lean ====
section
/-! DEFINITION. The address decoder and the decoded byte accesses of MOVE (20_memory.md rules R52 to R56). MOVE's one
addressing mode is absolute (40_move.md rule R97). -/

namespace Sys2Proof.Machine

/-- R52: what an operand address selects. -/
inductive Target where
  | mainMemory (i : Nat)
  | mapped (o : Nat)
deriving DecidableEq, Repr

/-- R52 `Decode(a)`: pure and total; bounds are checked afterwards. -/
def decodeAddress (c : Config) (a : Word) : Target :=
  if a.toNat < c.mapStart.toNat then .mainMemory a.toNat else .mapped (a.toNat - c.mapStart.toNat)

/-- R53 `MapRead(o)`; `f` is the fatal record the caller names. Offset 0 returns the status of a disk transaction. -/
def mapRead (f : Fatal) (o : Nat) (s : State) : Res Byte :=
  if o = 0 then diskTransaction s
  else if o + 1 > s.cfg.regionSize then .raised f s
  else .done (s.map.read o) s

/-- R56: the state the transaction of a write to offset 0 starts in: the byte is stored first, or dropped (R28). -/
def storeOff0 (v : Byte) (s : State) : State :=
  if s.cfg.off0WriteStores then s.withMap (s.map.write 0 v) else s

/-- R56 `MapWrite(o, v)`: a write to offset 0 runs a disk transaction and discards its status. -/
def mapWrite (f : Fatal) (o : Nat) (v : Byte) (s : State) : Res Unit :=
  if o = 0 then (diskTransaction (storeOff0 v s)).bind fun _ s1 => .done () s1
  else if o + 1 > s.cfg.regionSize then .raised f s
  else .done () (s.withMap (s.map.write o v))

/-- R54 `MemRead(a, 1)`: the decoded byte read. -/
def memRead (role : Role) (a : Word) (s : State) : Res Byte :=
  match decodeAddress s.cfg a with
  | .mainMemory i => mainReadByte (.memOob s.ip role a) i s
  | .mapped o => mapRead (.mapOob s.ip role a) o s

/-- R55 `MemWrite(b, 1, v)`: the decoded byte write. -/
def memWrite (role : Role) (b : Word) (v : Byte) (s : State) : Res Unit :=
  match decodeAddress s.cfg b with
  | .mainMemory i => mainWriteByte (.memOob s.ip role b) i v s
  | .mapped o => mapWrite (.mapOob s.ip role b) o v s

end Sys2Proof.Machine
end

