-- ==== Sys2Proof/Machine/Move.lean ====
section
/-! DEFINITION. MOVE (40_move.md). -/

namespace Sys2Proof.Machine

/-- R85 MOVE, steps 5 and 6 of R86: read one byte at `src`, with the transaction that may run, then write it at `dst`, then
`ip <- next`, the field as fetched (R88). Nothing is skipped when `src = dst` (R93). A fault ends it at once and undoes
nothing (R94, R95). -/
def execMove (src dst next : Word) (s : State) : Host.Outcome State Fault Refusal :=
  ((memRead .source src s).bind fun v s1 =>
    (memWrite .destination dst v s1).bind fun _ s2 => .done () (s2.withIp next)).outcome

end Sys2Proof.Machine
end

