-- ==== Sys2Proof/Machine/Dispatch.lean ====
section
/-! DEFINITION. What each instruction does: one arm per constructor of Instr. -/

namespace Sys2Proof.Machine

def exec (i : Instr) (s : State) : Host.Outcome State Fault Refusal :=
  match i with
  | .dbgtrap start len => Sys2Proof.Machine.execDbgTrap start len s
  | .move src dst next => Sys2Proof.Machine.execMove src dst next s

end Sys2Proof.Machine
end

