-- ==== Sys2Proof/Machine/Keyboard.lean ====
section
/-! DEFINITION. The keyboard snapshot register (44_keyboard.md). -/

namespace Sys2Proof.Machine

/-- R146: the sixteen slot bytes of a snapshot, starting at slot `16 - n`: the keys in the snapshot's order, cut to the
slots there are (R147), then `KB_PAD` (R149). -/
def slotBytes (pad : Byte) : Nat → List Byte → List Byte
  | 0, _ => []
  | n + 1, [] => pad :: slotBytes pad n []
  | n + 1, k :: ks => k :: slotBytes pad n ks

/-- R146 `Refresh(keys)`; `none` leaves every slot as it is (R148). -/
def refresh (keys : Option (List Byte)) (s : State) : State :=
  s.withMap (match keys with
    | none => s.map
    | some ks => s.map.writeBlock s.cfg.kbBase (slotBytes s.cfg.kbPad kbLen ks))

/-- R86 step 1: poll the keys and refresh the slots, before the fetch (R144). -/
def pollAndRefresh (s : State) : Res Unit :=
  match s.env.keysAnswer with
  | .hangs => .stuck (.neverReturns .pollKeys)
  | .returns keys => .done () (refresh keys (s.withEnv s.env.afterKeys))

/-- R142: key slot `j`. -/
def keySlot (s : State) (j : Nat) : Byte := s.map.read (s.cfg.kbBase + j)

end Sys2Proof.Machine
end

