-- ==== Sys2Proof/Machine/Fetch.lean ====
section
/-! DEFINITION. Steps 1 to 3 of the cycle (40_move.md rule R86): refresh, fetch, decode. -/

namespace Sys2Proof.Machine

/-- R86 steps 2 and 3, R87: read the three words at `ip` from main memory, never through the address decoder, and decode
them. The 24 bytes are one access for the bounds test. -/
def fetch (s : State) : Res Instr :=
  if s.ip.toNat + instrBytes > s.cfg.memSize then .raised (.fetchOob s.ip) s
  else .done (decodeFields (s.mem.word s.ip.toNat) (s.mem.word (s.ip.toNat + 8)) (s.mem.word (s.ip.toNat + 16))) s

/-- R86 steps 1 to 3: the refresh runs in every cycle that starts, also one that faults at the fetch (R144). -/
def beginCycle (s : State) : Res Instr := (pollAndRefresh s).bind fun _ s1 => fetch s1

end Sys2Proof.Machine
end

