-- ==== Sys2Proof/Machine/Framebuffer.lean ====
section
/-! DEFINITION. The framebuffer's snapshot port and step 7 of the cycle (43_framebuffer.md; 40_move.md rule R90). Its byte
ports are `mapRead` and `mapWrite` (R131, R132). -/

namespace Sys2Proof.Machine

/-- The listed bytes of `m[base .. base+n)`, by their distance from `base`. -/
def window (base n : Nat) (m : Memory) : Memory :=
  m.filterMap fun cell => if base ≤ cell.1 ∧ cell.1 < base + n then some (cell.1 - base, cell.2) else none

/-- R139 `Snapshot()`: the bytes `map[FB_BASE .. KB_BASE)`. It changes no state. -/
def snapshot (s : State) : Memory := window s.cfg.fbBase s.cfg.fbSize s.map

/-- The frame `present` is given (R170). -/
def frameOf (s : State) : Frame := ⟨s.cfg.width, s.cfg.height, snapshot s⟩

/-- R134: pixel `i` of a frame, the little-endian value of its four bytes. -/
def Frame.pixel (f : Frame) (i : Nat) : BitVec 32 := BitVec.ofNat 32 (leNat (f.pixels.readBlock (4 * i) 4))

/-- R90: the run state after the liveness answer. -/
def livenessRun (isOpen : Bool) : RunState := if isOpen then .running else .halted .windowClosed

/-- R86 step 7, after an instruction that left the machine Running, that is after every MOVE that completed step 6 (R90): present
the framebuffer, then read the sink's liveness. A cycle ended by a fault or a trap presents nothing (R138; log entry 5). Where
one of the two calls never returns, the outcome names the call and keeps none of the cycle's effects (DESIGN CHOICE, log entry 4). -/
def endCycle (s : State) : Host.Outcome State Fault Refusal :=
  match s.run with
  | .halted _ => .next s
  | .running =>
    match s.env.presentAnswer with
    | .hangs => .fault (.neverReturns .present)
    | .returns _ =>
      match s.env.afterPresent.openAnswer with
      | .hangs => .fault (.neverReturns .isOpen)
      | .returns isOpen =>
        .next (((s.withFrame (frameOf s)).withEnv s.env.afterPresent.afterOpen).withRun (livenessRun isOpen))

end Sys2Proof.Machine
end

