-- ==== Sys2Proof/Machine/Step.lean ====
section
/-! DEFINITION. One step of the machine: one cycle (40_move.md rules R82 and R86). -/

namespace Sys2Proof.Machine

/-- R86 `Cycle`, run only while Running: refresh, fetch and decode; run the instruction; present and poll liveness. A fatal
fetch halts the machine (R155); a halted machine has no step (R82). -/
def step (s : State) : Host.Outcome State Fault Refusal :=
  match s.run with
  | .halted r => .fault (.halted r)
  | .running =>
    match beginCycle s with
    | .stuck w => .fault w
    | .raised f s1 => .next (raiseFatal f s1)
    | .done i s1 =>
      match exec i s1 with
      | .next s2 => endCycle s2
      | .fault w => .fault w
      | .refused w => .refused w

/-- `s` with the instruction whose bits are `w` stored where the next step fetches: the 24 bytes at `ip` (R69). Where they
do not lie inside main memory no instruction can be fetched there (R87) and `s` is left as it is. -/
def State.withFetchWord (s : State) (nbits w : Nat) : State :=
  if s.ip.toNat + instrBytes > s.cfg.memSize then s
  else s.withMem (s.mem.writeBlock s.ip.toNat (tableBytes nbits w))

end Sys2Proof.Machine
end

