-- ==== Sys2Proof/Machine/Assembly.lean ====
section
/-! DEFINITION. The spec's own assembler items and pseudo-instructions (30_encoding.md rules R75 and R76), as abstract syntax.
They are other names for the words of MOVE and DBGTRAP; no behaviour of the machine depends on them (D28). Labels are
numbers here (log entry 13), and a sum past the word range wraps (DESIGN CHOICE, log entry 20). -/

namespace Sys2Proof.Machine

/-- R76 `jmp <t>` with the scratch address `scratch`. -/
def jmpInstr (scratch target : Word) : Instr := .move scratch scratch target

/-- R76 `spin` at the offset `here`. -/
def spinInstr (scratch here : Word) : Instr := jmpInstr scratch here

/-- R76 `stop`. -/
def stopInstr : Instr := .dbgtrap 0 0

/-- R76 `trigger <dst>`, followed by the instruction at `next`. -/
def triggerInstr (c : Config) (dst next : Word) : Instr := .move c.mapStart dst next

/-- R76 `movw <src>, <dst>` at the offset `here`: the MOVEs for the last `n` of the eight bytes. DESIGN CHOICE (log entry 20):
`src+k`, `dst+k` and the next offset wrap modulo `2^64`, where the spec gives such a sum no value; an all-ones `src+k` is accepted (log entry 22). -/
def movwFrom (src dst here : Word) : Nat → List Instr
  | 0 => []
  | n + 1 =>
    let k := BitVec.ofNat 64 (7 - n)
    .move (src + k) (dst + k) (here + 24 * (k + 1)) :: movwFrom src dst here n

/-- R76 `movw <src>, <dst>` at the offset `here`: eight MOVEs, each followed by the next. -/
def movwInstrs (src dst here : Word) : List Instr := movwFrom src dst here 8

/-- R75: an operand. -/
inductive AsmOperand where
  | literal (w : Word)
  /-- A label, with a displacement. -/
  | label (name : Nat) (plus : Word)
  /-- `.`, the offset of the first byte of the current instruction. -/
  | here
  /-- `M+n`. -/
  | mapped (n : Word)
deriving DecidableEq, Repr

/-- R75, R76: an item of a program. -/
inductive AsmItem where
  | label (name : Nat)
  | org (offset : Nat)
  | word (w : AsmOperand)
  | byte (v : Byte)
  | mov (src dst next : AsmOperand)
  | dbg (start len : AsmOperand)
  | jmp (target : AsmOperand)
  | spin
  | stop
  | movw (src dst : AsmOperand)
  | trigger (dst : AsmOperand)
deriving DecidableEq, Repr

/-- The offset after an item that starts at `at_`. -/
def AsmItem.next (at_ : Nat) : AsmItem → Nat
  | .label _ => at_
  | .org n => n
  | .word _ => at_ + 8
  | .byte _ => at_ + 1
  | .movw _ _ => at_ + 8 * instrBytes
  | .mov _ _ _ | .dbg _ _ | .jmp _ | .spin | .stop | .trigger _ => at_ + instrBytes

/-- The offset of every label of a program that starts at `at_`. -/
def asmLabels : Nat → List AsmItem → List (Nat × Nat)
  | _, [] => []
  | at_, .label name :: items => (name, at_) :: asmLabels at_ items
  | at_, item :: items => asmLabels (item.next at_) items

/-- The offset of one label: its first definition, and none where it has no definition (log entry 20). -/
def asmLookup : List (Nat × Nat) → Nat → Option Nat
  | [], _ => none
  | (n, v) :: labels, name => if n = name then some v else asmLookup labels name

/-- R75: what an operand of an item at offset `at_` stands for. DESIGN CHOICE (log entry 20): `M+n`, a label with its
displacement, and an offset past the word range wrap modulo `2^64`, where the spec gives them no value. -/
def AsmOperand.value (c : Config) (labels : List (Nat × Nat)) (at_ : Nat) : AsmOperand → Option Word
  | .literal w => some w
  | .label name plus => (asmLookup labels name).map fun v => BitVec.ofNat 64 v + plus
  | .here => some (BitVec.ofNat 64 at_)
  | .mapped n => some (c.mapStart + n)

/-- The bytes of a list of instructions. -/
def encodeAll : List Instr → List Byte
  | [] => []
  | i :: is => encode i ++ encodeAll is

/-- The bytes an item at offset `at_` assembles to; `scratch` is the programmer's scratch address `S` (R76).
DESIGN CHOICE (log entry 22): `mov` with an all-ones source is accepted and gives the bytes of a DBGTRAP, where the spec is silent. -/
def AsmItem.bytes (c : Config) (scratch : Word) (labels : List (Nat × Nat)) (at_ : Nat) : AsmItem → Option (List Byte)
  | .label _ | .org _ => some []
  | .word w => (w.value c labels at_).map bytes8
  | .byte v => some [v]
  | .mov src dst next => do
      let a ← src.value c labels at_
      let b ← dst.value c labels at_
      let n ← next.value c labels at_
      return encode (.move a b n)
  | .dbg start len => do
      let b ← start.value c labels at_
      let n ← len.value c labels at_
      return encode (.dbgtrap b n)
  | .jmp target => (target.value c labels at_).map fun t => encode (jmpInstr scratch t)
  | .spin => some (encode (spinInstr scratch (BitVec.ofNat 64 at_)))
  | .stop => some (encode stopInstr)
  | .movw src dst => do
      let a ← src.value c labels at_
      let b ← dst.value c labels at_
      return encodeAll (movwInstrs a b (BitVec.ofNat 64 at_))
  | .trigger dst =>
    (dst.value c labels at_).map fun b => encode (triggerInstr c b (BitVec.ofNat 64 (at_ + instrBytes)))

/-- Assemble the items from offset `at_` into zero-filled memory; `none` where a label is not defined. -/
def asmEmit (c : Config) (scratch : Word) (labels : List (Nat × Nat)) : Nat → Memory → List AsmItem → Option Memory
  | _, m, [] => some m
  | at_, m, item :: items => do
      let bs ← item.bytes c scratch labels at_
      asmEmit c scratch labels (item.next at_) (m.writeBlock at_ bs) items

/-- R75: the memory a program assembles to, from offset 0; programs R75 and R76 do not allow for are accepted (log entry 22). -/
def assemble (c : Config) (scratch : Word) (items : List AsmItem) : Option Memory :=
  asmEmit c scratch (asmLabels 0 items) 0 [] items

/-- R75: every program's first item is the entry word. -/
def startsWithEntry : List AsmItem → Bool
  | .word _ :: _ => true
  | _ => false

end Sys2Proof.Machine
end

