-- ==== Sys2Proof/Machine/Reset.lean ====
section
/-! DEFINITION. Reset: the start of the host process (70_reset_and_hazards.md rules R177 to R180). -/

namespace Sys2Proof.Machine

/-- R177: what the host supplies at launch (60_exceptions.md rule R173). -/
structure Launch where
  cfg : Config
  /-- Whether the sink was initialised, the image read, and the memories allocated (R154 `HOST_INIT`; log entry 15). -/
  hostReady : Bool
  /-- The program image (R178). -/
  image : List Byte
  /-- The backing store at launch (D24). -/
  disk0 : Disk
  /-- The environment's answers. -/
  env : Env
deriving DecidableEq, Repr

/-- R177 before the image load: zero-filled `mem` and `map` (D22, D23), the host's store. DESIGN CHOICE (log entry 21): a launch
that ends in HOST_INIT or IMAGE_TOO_LARGE keeps these values, with `ip` 0, where the spec gives `ip`, `mem` and `map` none. -/
def launchBlank (l : Launch) : State where
  cfg := l.cfg
  ip := 0
  run := .running
  mem := []
  map := []
  disk := l.disk0
  frames := []
  env := l.env

/-- R177, R178: the state once the image lies verbatim at offset 0. -/
def launchLoaded (l : Launch) : State := (launchBlank l).withMem (Memory.writeBlock [] 0 l.image)

/-- R177 `Reset(image, disk0)`: host failures, then the image load (R178), then the entry word (R179). After ENTRY_OOB `ip` stays 0
(DESIGN CHOICE, log entry 21). -/
def launch (l : Launch) : State :=
  if l.hostReady = false then raiseFatal .hostInit (launchBlank l)
  else if l.image.length > l.cfg.memSize then raiseFatal (.imageTooLarge l.image.length) (launchBlank l)
  else
    match mainReadWord .entryOob 0 (launchLoaded l) with
    | .done entry s => s.withIp entry
    | .raised f s => raiseFatal f s
    | .stuck _ => launchLoaded l

end Sys2Proof.Machine
end

