-- ==== Sys2Proof/Safety.lean ====
section
/-! DEFINITION. The terms claims are stated in: the invariant of the machine's data, and what a fault-free cycle needs. -/

namespace Sys2Proof.Machine

/-- The invariant of the machine's data: `mem` and `map` are canonical and inside their sizes (R24, R25), and the backing store
is canonical with whole sectors (R33, R126). -/
def State.inv (s : State) : Bool :=
  s.mem.wf && s.mem.within s.cfg.memSize && s.map.wf && s.map.within s.cfg.regionSize && s.disk.wf s.cfg.sectorSize

/-- R58, R94: the operand addresses a MOVE may access without a fault. -/
def addressOk (c : Config) (a : Word) : Bool :=
  match decodeAddress c a with
  | .mainMemory i => decide (i < c.memSize)
  | .mapped o => decide (o < c.regionSize)

/-- R58: the address selects the byte `mem[a]`. -/
abbrev selectsMain (c : Config) (a : Word) : Prop := a.toNat < c.mapStart.toNat ∧ a.toNat < c.memSize

/-- R58: the address selects the stored byte `map[a - MAP_START]`, at an offset other than the disk trigger's. -/
abbrev selectsMapped (c : Config) (a : Word) : Prop :=
  c.mapStart.toNat < a.toNat ∧ a.toNat < c.mapStart.toNat + c.regionSize

/-- R58: the mapped offset of an address at or above `MAP_START`. -/
def mappedOffset (c : Config) (a : Word) : Nat := a.toNat - c.mapStart.toNat

/-- R58: the address selects a stored byte, so that an access to it has no side effect (R46). -/
abbrev selectsByte (c : Config) (a : Word) : Prop := selectsMain c a ∨ selectsMapped c a

/-- R54, R58: the stored byte an address selects. -/
def operandByte (s : State) (a : Word) : Byte :=
  if a.toNat < s.cfg.mapStart.toNat then s.mem.read a.toNat else s.map.read (mappedOffset s.cfg a)

/-- The memories after a write of `v` at the operand address `b`, read byte by byte (R50, R56): the selected byte is `v`, every
other byte of `mem` and of `map` is as before. -/
def writtenAt (s t : State) (b : Word) (v : Byte) : Prop :=
  (∀ x, t.mem.read x = if selectsMain s.cfg b ∧ x = b.toNat then v else s.mem.read x) ∧
  (∀ o, t.map.read o = if selectsMapped s.cfg b ∧ o = mappedOffset s.cfg b then v else s.map.read o)

/-- Nothing but `ip`, `mem` and `map` differs. -/
def sameElsewhere (s t : State) : Prop :=
  t.cfg = s.cfg ∧ t.run = s.run ∧ t.disk = s.disk ∧ t.frames = s.frames ∧ t.env = s.env

/-- `MainWriteByte`s in turn (R50), each an offset and a byte; `f` is the fatal record the caller names. -/
def mainWrites (f : Fatal) : List (Nat × Byte) → State → Res Unit
  | [], s => .done () s
  | w :: ws, s => (mainWriteByte f w.1 w.2 s).bind fun _ s1 => mainWrites f ws s1

/-- The state a cycle's instruction runs in: after step 1 of R86, with the snapshot `keys`. -/
def afterRefresh (keys : Option (List Byte)) (s : State) : State := refresh keys (s.withEnv s.env.afterKeys)

/-- The instruction the next cycle fetches is `i` (R86 steps 1 to 3): the machine is Running, `poll_keys()` answers `keys`, and
the 24 bytes at `ip` lie inside main memory and decode to `i`. -/
abbrev runsNext (s : State) (keys : Option (List Byte)) (i : Instr) : Prop :=
  s.run = .running ∧ s.env.keysAnswer = .returns keys ∧ s.ip.toNat + instrBytes ≤ s.cfg.memSize ∧
    decode (s.mem.readBlock s.ip.toNat instrBytes) = .instr i []

/-- The instruction accesses mapped offset 0, the disk trigger (R112, R186). -/
def touchesTrigger (c : Config) : Instr → Prop
  | .dbgtrap _ _ => False
  | .move src dst _ => src = c.mapStart ∨ dst = c.mapStart

/-- A run is safe while no fatal condition has halted it (R153). -/
def State.faulted (s : State) : Bool :=
  match s.run with
  | .halted (.fault _) => true
  | _ => false

end Sys2Proof.Machine
end

