-- ==== Sys2Proof/Certificates/Slice0/Obligations.lean ====
section
/-! DEFINITION. The statements for the provers. Each docstring names the rule of spec/ it formalises. -/

open Sys2Proof Sys2Proof.Machine

/-! ### Encoding -/

/-- R69, R71, R72: the encoding of a well-formed instruction decodes to it, whatever bytes follow. -/
def Obligations.DecodeOfEncode : Prop :=
  ∀ (i : Instr) (rest : List Byte), i.wellFormed = true → decode (encode i ++ rest) = .instr i rest

/-- R69, R70, R73: what the decoder reads is well formed and encodes to the very bytes read; no bit is dropped. -/
def Obligations.EncodeOfDecode : Prop :=
  ∀ (bytes rest : List Byte) (i : Instr), decode bytes = .instr i rest →
    i.wellFormed = true ∧ encode i ++ rest = bytes

/-- R71: the decoder is total over the three fields and looks only at `a`. -/
def Obligations.DecoderLooksOnlyAtSource : Prop :=
  ∀ a b c : Word, decode (bytes8 a ++ bytes8 b ++ bytes8 c) =
    .instr (if a = 0xFFFFFFFFFFFFFFFF then .dbgtrap b c else .move a b c) []

/-- R74: the decoded instruction is that of the first row of the opcode map that matches `a`. -/
def Obligations.DecoderFollowsOpcodeMap : Prop :=
  ∀ a b c : Word, (opcodeMap.find? fun r => r.matchesField a).map OpcodeRow.mnemonic = some (decodeFields a b c).mnemonic

/-- R69: with `I` the little-endian value of the 24 bytes at `ip`, the words at `ip`, `ip + 8`, `ip + 16` are `I[63:0]`,
`I[127:64]`, `I[191:128]`. -/
def Obligations.FieldsAreBitsOfInstruction : Prop :=
  ∀ (m : Memory) (ip : Nat),
    (m.word ip).toNat = leNat (m.readBlock ip 24) % 2 ^ 64 ∧
    (m.word (ip + 8)).toNat = leNat (m.readBlock ip 24) / 2 ^ 64 % 2 ^ 64 ∧
    (m.word (ip + 16)).toNat = leNat (m.readBlock ip 24) / 2 ^ 128

/-- R77 (the spec marks its byte strings as derived): two words written out from the encoding. -/
def Obligations.WorkedEncodingsDecode : Prop :=
  decode [0x64, 0, 0, 0, 0, 0, 0, 0, 0x65, 0, 0, 0, 0, 0, 0, 0, 0, 0, 0, 0, 0, 0, 0, 0] = .instr (.move 100 101 0) [] ∧
  decode [0xFF, 0xFF, 0xFF, 0xFF, 0xFF, 0xFF, 0xFF, 0xFF, 0, 0x04, 0, 0, 0, 0, 0, 0, 4, 0, 0, 0, 0, 0, 0, 0] =
    .instr (.dbgtrap 0x400 4) []

/-! ### The cycle -/

/-- R82, R84: a halted machine has no step. That `step` then answers the fault `halted` is the model's form (log entry 5). -/
def Obligations.HaltedMachineHasNoStep : Prop :=
  ∀ (s : State) (r : HaltReason), s.run = .halted r → step s = .fault (.halted r)

/-- R86: when the bytes at `ip` decode to `i`, a step is the refresh, then `exec i`, then the end of the cycle. -/
def Obligations.StepRunsDecodedInstruction : Prop :=
  ∀ (s : State) (keys : Option (List Byte)) (i : Instr), runsNext s keys i →
    step s = match exec i (afterRefresh keys s) with
      | .next t => endCycle t
      | .fault w => .fault w
      | .refused w => .refused w

/-- R87 (decisions D2 and D16 of the spec): a fetch whose 24 bytes leave main memory halts the machine with `FETCH_OOB`; the
refresh has run (R144), `ip` is unchanged and nothing is presented. -/
def Obligations.FetchOutsideMemoryHalts : Prop :=
  ∀ (s : State) (keys : Option (List Byte)), s.run = .running → s.env.keysAnswer = .returns keys →
    s.cfg.memSize < s.ip.toNat + 24 →
    step s = .next ((afterRefresh keys s).withRun (.halted (.fault (.fetchOob s.ip))))

/-- R86 step 7, R90: after an instruction that left the machine Running, one frame is presented, then liveness is read; a closed
sink halts the machine and keeps every effect. A cycle that halted it ends as it is (R138). -/
def Obligations.EndOfCyclePresentsThenPolls : Prop :=
  ∀ s : State,
    (∀ r, s.run = .halted r → endCycle s = .next s) ∧
    (∀ isOpen, s.run = .running → s.env.presentAnswer = .returns () →
      s.env.afterPresent.openAnswer = .returns isOpen →
      ∃ t, endCycle s = .next t ∧ t.run = (if isOpen = true then .running else .halted .windowClosed) ∧
        t.frames = frameOf s :: s.frames ∧ t.cfg = s.cfg ∧ t.ip = s.ip ∧ t.mem = s.mem ∧ t.map = s.map ∧ t.disk = s.disk)

/-- R171 (decision D30; the fault's name is the model's, log entry 4): a host call that never returns leaves the machine stuck,
at each of the five calls. `poll_keys` stops the step, `present` and `is_open` the end of its cycle, and a storage call the
transaction and, with it, the MOVE that reads or writes `MAP_START`; the step whose instruction or whose end of cycle is stuck
is stuck with the same fault. -/
def Obligations.HostCallThatHangsIsStuck : Prop :=
  ∀ s : State,
    (s.run = .running → s.env.keysAnswer = .hangs → step s = .fault (.neverReturns .pollKeys)) ∧
    (s.run = .running → s.env.presentAnswer = .hangs → endCycle s = .fault (.neverReturns .present)) ∧
    (s.run = .running → s.env.presentAnswer = .returns () → s.env.afterPresent.openAnswer = .hangs →
      endCycle s = .fault (.neverReturns .isOpen)) ∧
    (reqDirection s = 0 → s.env.diskAnswer = .hangs → diskTransaction s = .stuck (.neverReturns .diskRead)) ∧
    (reqDirection s ≠ 0 → (reqAddr s).toNat + s.cfg.sectorSize ≤ s.cfg.memSize → s.env.diskAnswer = .hangs →
      diskTransaction s = .stuck (.neverReturns .diskWrite)) ∧
    (∀ b c w, diskTransaction s = .stuck w → exec (.move s.cfg.mapStart b c) s = .fault w) ∧
    (∀ a c w, selectsByte s.cfg a → diskTransaction (storeOff0 (operandByte s a) s) = .stuck w →
      exec (.move a s.cfg.mapStart c) s = .fault w) ∧
    (∀ c v s1 w, diskTransaction s = .done v s1 → diskTransaction (storeOff0 v s1) = .stuck w →
      exec (.move s.cfg.mapStart s.cfg.mapStart c) s = .fault w) ∧
    (∀ keys i w, runsNext s keys i → exec i (afterRefresh keys s) = .fault w → step s = .fault w) ∧
    (∀ keys i t w, runsNext s keys i → exec i (afterRefresh keys s) = .next t → endCycle t = .fault w →
      step s = .fault w)

/-- R89 (with R87 for the next fetch): every MOVE that completes sets `ip` to the `c` it was fetched with, unchecked; where that
leaves main memory the next cycle faults. -/
def Obligations.CompletedMoveJumpsToFetchedNext : Prop :=
  ∀ (s t : State) (keys : Option (List Byte)) (a b c : Word), runsNext s keys (.move a b c) → step s = .next t →
    t.faulted = false →
    t.ip = c ∧
    (∀ keys', t.run = .running → t.env.keysAnswer = .returns keys' → t.cfg.memSize < c.toNat + 24 →
      ∃ u, step t = .next u ∧ u.run = .halted (.fault (.fetchOob c)))

/-- R136, R138, R139: a step that ends Running or with the window closed presents one frame, the framebuffer as the cycle leaves
it; a step that ends in a fault or a trap presents none. That State records frames is the model's choice (log entry 6). -/
def Obligations.OneFramePerCompletedMove : Prop :=
  ∀ s t : State, step s = .next t →
    ((t.run = .running ∨ t.run = .halted .windowClosed) ∧ t.frames = frameOf t :: s.frames) ∨
    ((t.faulted = true ∨ ∃ dump, t.run = .halted (.debugTrap dump)) ∧ t.frames = s.frames)

/-- R65: a fetch reads memory at the moment of the fetch: after a write to one of the 24 bytes it decodes the bytes with that one
replaced. -/
def Obligations.FetchSeesLatestWrite : Prop :=
  ∀ (s : State) (x : Nat) (v : Byte), s.mem.wf = true → s.ip.toNat + 24 ≤ s.cfg.memSize → s.ip.toNat ≤ x →
    x < s.ip.toNat + 24 →
    ∃ i, fetch (s.withMem (s.mem.write x v)) = .done i (s.withMem (s.mem.write x v)) ∧
      decode ((s.mem.readBlock s.ip.toNat 24).set (x - s.ip.toNat) v) = .instr i []

/-! ### MOVE -/

/-- R85, R91, R58: between two addresses that select stored bytes MOVE completes: the one byte is copied unchanged, `ip` is `c`, and
no other byte and no other state changes. Main memory and mapped region, all four forms, `a = b` (R93) included. -/
def Obligations.MoveCopiesOneByte : Prop :=
  ∀ (s : State) (a b c : Word), s.inv = true → selectsByte s.cfg a → selectsByte s.cfg b →
    ∃ t, exec (.move a b c) s = .next t ∧ t.ip = c ∧ sameElsewhere s t ∧ writtenAt s t b (operandByte s a)

/-- R116, R92: a MOVE from `MAP_START` runs one transaction and writes its status, after it, over whatever it did. -/
def Obligations.MoveFromTriggerWritesStatus : Prop :=
  ∀ (s s1 : State) (b c : Word) (v : Byte), s.inv = true → diskTransaction s = .done v s1 → selectsByte s.cfg b →
    ∃ t, exec (.move s.cfg.mapStart b c) s = .next t ∧ t.ip = c ∧ sameElsewhere s1 t ∧ writtenAt s1 t b v

/-- R56, R112: a MOVE to `MAP_START` reads its source byte, stores it at `map[0]` only where `OFF0_WRITE_STORES` says so, then runs
one transaction and discards the status. -/
def Obligations.MoveToTriggerRunsTransaction : Prop :=
  ∀ (s s0 s1 : State) (a c : Word) (w : Byte), selectsByte s.cfg a →
    s0 = (if s.cfg.off0WriteStores = true then s.withMap (s.map.write 0 (operandByte s a)) else s) →
    diskTransaction s0 = .done w s1 → exec (.move a s.cfg.mapStart c) s = .next (s1.withIp c)

/-- R93 (decision D10 of the spec), R112: `mov MAP_START, MAP_START, c` runs two transactions, the second in the state the first
left, with the first one's status stored where `OFF0_WRITE_STORES` says so. -/
def Obligations.MoveTriggerToTriggerRunsTwo : Prop :=
  ∀ (s s1 s2 s3 : State) (c : Word) (v w : Byte), diskTransaction s = .done v s1 →
    s2 = (if s.cfg.off0WriteStores = true then s1.withMap (s1.map.write 0 v) else s1) →
    diskTransaction s2 = .done w s3 →
    exec (.move s.cfg.mapStart s.cfg.mapStart c) s = .next (s3.withIp c)

/-- R94 (source), R155; codes and recorded values are decision D27 of the spec: a source outside its memory halts the machine with
nothing else changed, whatever the destination. -/
def Obligations.SourceOutsideMemoryFaults : Prop :=
  ∀ (s : State) (a b c : Word),
    (a.toNat < s.cfg.mapStart.toNat → s.cfg.memSize ≤ a.toNat →
      exec (.move a b c) s = .next (s.withRun (.halted (.fault (.memOob s.ip .source a))))) ∧
    (s.cfg.mapStart.toNat + s.cfg.regionSize ≤ a.toNat →
      exec (.move a b c) s = .next (s.withRun (.halted (.fault (.mapOob s.ip .source a)))))

/-- R94 (destination), R155, and R95, which the spec marks as derived: a destination outside its memory halts the machine, and what
the source read did stays: nothing for a stored byte, the transaction's effects for `MAP_START`. -/
def Obligations.DestinationOutsideMemoryKeepsSourceEffects : Prop :=
  ∀ (s s1 : State) (a b c : Word) (v : Byte),
    (selectsByte s.cfg a ∧ s1 = s ∨ a = s.cfg.mapStart ∧ diskTransaction s = .done v s1) →
    (b.toNat < s.cfg.mapStart.toNat → s.cfg.memSize ≤ b.toNat →
      exec (.move a b c) s = .next (s1.withRun (.halted (.fault (.memOob s.ip .destination b))))) ∧
    (s.cfg.mapStart.toNat + s.cfg.regionSize ≤ b.toNat →
      exec (.move a b c) s = .next (s1.withRun (.halted (.fault (.mapOob s.ip .destination b)))))

/-- R155, R163, R156: a step that ends in a fault leaves `ip` at the faulting instruction and presents no frame, and what the fault
records of `ip` is that value. -/
def Obligations.FaultLeavesInstructionPointer : Prop :=
  ∀ (s t : State) (f : Fatal), step s = .next t → t.run = .halted (.fault f) →
    t.ip = s.ip ∧ t.frames = s.frames ∧ 1 ≤ f.code ∧ f.code ≤ 4 ∧
    (f = .fetchOob s.ip ∨ (∃ role a, f = .memOob s.ip role a) ∨ (∃ role a, f = .mapOob s.ip role a) ∨
      ∃ b c, f = .dumpOob s.ip b c)

/-- R161 (marked as derived by the spec): within one cycle the fetch is tested first, then the sentinel (a dump out of
bounds, else the trap), then the source, then the
destination; the sink's liveness comes last and only after a completed MOVE. -/
def Obligations.FirstConditionEndsCycle : Prop :=
  ∀ (s t : State) (keys : Option (List Byte)), s.run = .running → s.env.keysAnswer = .returns keys → step s = .next t →
    (s.cfg.memSize < s.ip.toNat + 24 → t.run = .halted (.fault (.fetchOob s.ip))) ∧
    (∀ b c, runsNext s keys (.dbgtrap b c) → s.cfg.memSize < b.toNat + c.toNat →
      t.run = .halted (.fault (.dumpOob s.ip b c))) ∧
    (∀ b c, runsNext s keys (.dbgtrap b c) → b.toNat + c.toNat ≤ s.cfg.memSize →
      ∃ dump, t.run = .halted (.debugTrap dump)) ∧
    (∀ a b c, runsNext s keys (.move a b c) → addressOk s.cfg a = false →
      t.run = .halted (.fault (.memOob s.ip .source a)) ∨ t.run = .halted (.fault (.mapOob s.ip .source a))) ∧
    (∀ a b c, runsNext s keys (.move a b c) → addressOk s.cfg a = true → addressOk s.cfg b = false →
      t.run = .halted (.fault (.memOob s.ip .destination b)) ∨
      t.run = .halted (.fault (.mapOob s.ip .destination b))) ∧
    (∀ a b c, runsNext s keys (.move a b c) → addressOk s.cfg a = true → addressOk s.cfg b = true →
      t.run = .running ∨ t.run = .halted .windowClosed)

/-- Frame of MOVE between operands other than `MAP_START` (R46, R50, R56): the store goes to the byte `b` selects; every other byte
of `mem` and `map`, and all other state but `ip` and `run`, is unchanged. Faulting forms included. -/
def Obligations.FrameOfMoveWithoutTrigger : Prop :=
  ∀ (s t : State) (a b c : Word), s.inv = true → a ≠ s.cfg.mapStart → b ≠ s.cfg.mapStart →
    exec (.move a b c) s = .next t →
    t.cfg = s.cfg ∧ t.disk = s.disk ∧ t.frames = s.frames ∧ t.env = s.env ∧
    (∀ x, ¬ (selectsMain s.cfg b ∧ x = b.toNat) → t.mem.read x = s.mem.read x) ∧
    (∀ o, ¬ (selectsMapped s.cfg b ∧ o = mappedOffset s.cfg b) → t.map.read o = s.map.read o)

/-- Frame of MOVE from `MAP_START` to another operand (R117, R120, R121, R125): outside the transfer range, the sector of the request
and the byte `b` selects, nothing changes but `ip`, `run` and the storage's answers still to come, of which one is
taken (log entry 10). -/
def Obligations.FrameOfMoveFromTrigger : Prop :=
  ∀ (s t : State) (b c : Word), s.inv = true → b ≠ s.cfg.mapStart → exec (.move s.cfg.mapStart b c) s = .next t →
    t.cfg = s.cfg ∧ t.frames = s.frames ∧ t.env = s.env.afterDisk ∧
    (∀ x, (x < (reqAddr s).toNat ∨ (reqAddr s).toNat + s.cfg.sectorSize ≤ x) →
      ¬ (selectsMain s.cfg b ∧ x = b.toNat) → t.mem.read x = s.mem.read x) ∧
    (∀ o, ¬ (selectsMapped s.cfg b ∧ o = mappedOffset s.cfg b) → t.map.read o = s.map.read o) ∧
    (∀ n, n ≠ (reqSector s).toNat → t.disk.read s.cfg.sectorSize n = s.disk.read s.cfg.sectorSize n)

/-- Frame of MOVE to `MAP_START` from another operand (R28, R56, R117): outside the transfer range and the sector of the request, which
is read after the byte is stored, nothing changes but `ip`, `run`, the storage's answers still to come and, only where
`OFF0_WRITE_STORES` says so, `map[0]`. One answer of the storage is taken (log entry 10), and none where the source faults. -/
def Obligations.FrameOfMoveToTrigger : Prop :=
  ∀ (s t : State) (a c : Word), s.inv = true → a ≠ s.cfg.mapStart → exec (.move a s.cfg.mapStart c) s = .next t →
    t.cfg = s.cfg ∧ t.frames = s.frames ∧ t.env = (if addressOk s.cfg a = true then s.env.afterDisk else s.env) ∧
    (∀ x, (x < (reqAddr s).toNat ∨ (reqAddr s).toNat + s.cfg.sectorSize ≤ x) → t.mem.read x = s.mem.read x) ∧
    (∀ o, o ≠ 0 ∨ s.cfg.off0WriteStores = false → t.map.read o = s.map.read o) ∧
    (∀ n, n ≠ (reqSector (storeOff0 (operandByte s a) s)).toNat →
      t.disk.read s.cfg.sectorSize n = s.disk.read s.cfg.sectorSize n)

/-- Frame of `mov MAP_START, MAP_START, c` (R93, R117): both transfers have the same range; the second one's sector is that of the
first one's status stored at `map[0]`, where `OFF0_WRITE_STORES` says so. Two answers of the storage are taken (log entry 10). -/
def Obligations.FrameOfMoveTriggerToTrigger : Prop :=
  ∀ (s s1 t : State) (c : Word) (v : Byte), s.inv = true → diskTransaction s = .done v s1 →
    exec (.move s.cfg.mapStart s.cfg.mapStart c) s = .next t →
    t.cfg = s.cfg ∧ t.run = s.run ∧ t.frames = s.frames ∧ t.env = s.env.afterDisk.afterDisk ∧
    (∀ x, (x < (reqAddr s).toNat ∨ (reqAddr s).toNat + s.cfg.sectorSize ≤ x) → t.mem.read x = s.mem.read x) ∧
    (∀ o, o ≠ 0 ∨ s.cfg.off0WriteStores = false → t.map.read o = s.map.read o) ∧
    (∀ n, n ≠ (reqSector s).toNat → n ≠ (reqSector (storeOff0 v s)).toNat →
      t.disk.read s.cfg.sectorSize n = s.disk.read s.cfg.sectorSize n)

/-! ### DBGTRAP -/

/-- R102, R105: DBGTRAP dumps `mem[b .. b+c)` and halts. `b` is a main-memory offset that is not decoded: a value at or above
`MAP_START` still names main memory, so nothing is assumed of it but the range. -/
def Obligations.DebugTrapDumpsMainMemory : Prop :=
  ∀ (s : State) (b c : Word), b.toNat + c.toNat ≤ s.cfg.memSize →
    ∃ dump, exec (.dbgtrap b c) s = .next (s.withRun (.halted (.debugTrap dump))) ∧ dump.length = c.toNat ∧
      ∀ k, k < c.toNat → dump[k]? = some (s.mem.read (b.toNat + k))

/-- R106 (decision D26 of the spec), R12: a dump range that leaves main memory, on unbounded integers, is `DUMP_OOB`. -/
def Obligations.DebugTrapOutsideMemoryFaults : Prop :=
  ∀ (s : State) (b c : Word), s.cfg.memSize < b.toNat + c.toNat →
    exec (.dbgtrap b c) s = .next (s.withRun (.halted (.fault (.dumpOob s.ip b c))))

/-- Frame of DBGTRAP (R103, which the spec marks as derived): nothing changes but `run`, which halts. -/
def Obligations.FrameOfDebugTrap : Prop :=
  ∀ (s t : State) (b c : Word), exec (.dbgtrap b c) s = .next t →
    t.cfg = s.cfg ∧ t.ip = s.ip ∧ t.mem = s.mem ∧ t.map = s.map ∧ t.disk = s.disk ∧ t.frames = s.frames ∧
    t.env = s.env ∧ ∃ r, t.run = .halted r

/-- R101, R103, R108: a cycle that fetches DBGTRAP halts the machine, runs no transaction and presents no frame; only the keyboard
refresh and `run` change, so the machine has no further step. -/
def Obligations.DebugTrapCycleOnlyHalts : Prop :=
  ∀ (s : State) (keys : Option (List Byte)) (b c : Word), runsNext s keys (.dbgtrap b c) →
    ∃ r, step s = .next ((afterRefresh keys s).withRun (.halted r)) ∧ r ≠ .windowClosed ∧
      step ((afterRefresh keys s).withRun (.halted r)) = .fault (.halted r)

/-! ### The disk sequencer -/

/-- R120: a read-path transfer that succeeds copies the sector to `mem[addr .. addr + SECTOR_SIZE)`, whatever lies there, with status 0;
it writes only main memory. -/
def Obligations.DiskReadCopiesSector : Prop :=
  ∀ s : State, s.inv = true → reqDirection s = 0 → s.env.diskAnswer = .returns .ok →
    (reqAddr s).toNat + s.cfg.sectorSize ≤ s.cfg.memSize →
    ∃ t, diskTransaction s = .done 0 t ∧ t.map = s.map ∧ t.disk = s.disk ∧
      (∀ k, k < s.cfg.sectorSize →
        (s.disk.read s.cfg.sectorSize (reqSector s).toNat)[k]? = some (t.mem.read ((reqAddr s).toNat + k))) ∧
      (∀ x, x < (reqAddr s).toNat ∨ (reqAddr s).toNat + s.cfg.sectorSize ≤ x → t.mem.read x = s.mem.read x)

/-- R119: on the read path a range that exceeds main memory gives status 255 and copies nothing; a range that ends exactly at
`MEM_SIZE` succeeds. The sum is unbounded (R12). -/
def Obligations.DiskReadOverflowCopiesNothing : Prop :=
  ∀ s : State, reqDirection s = 0 → s.env.diskAnswer = .returns .ok →
    (s.cfg.memSize < (reqAddr s).toNat + s.cfg.sectorSize →
      ∃ t, diskTransaction s = .done 255 t ∧ t.mem = s.mem ∧ t.disk = s.disk) ∧
    ((reqAddr s).toNat + s.cfg.sectorSize = s.cfg.memSize → ∃ t, diskTransaction s = .done 0 t)

/-- R118, R123 and 90_conflicts.md C12: on the read path a storage error gives its status, whatever the range, and changes nothing. -/
def Obligations.DiskReadErrorComesFirst : Prop :=
  ∀ (s : State) (code : Nat) (torn : List Byte), reqDirection s = 0 →
    s.env.diskAnswer = .returns (.error code torn) →
    diskTransaction s = .done (errorStatus code) (s.withEnv s.env.afterDisk)

/-- R121: a write-path transfer that succeeds stores `mem[addr .. addr + SECTOR_SIZE)` as the sector, with status 0, and touches no other
sector; no write-path transaction, whatever its answer, changes main memory. -/
def Obligations.DiskWriteStoresSector : Prop :=
  ∀ s : State, s.inv = true → reqDirection s ≠ 0 →
    (s.env.diskAnswer = .returns .ok → (reqAddr s).toNat + s.cfg.sectorSize ≤ s.cfg.memSize →
      ∃ t, diskTransaction s = .done 0 t ∧
        t.disk.read s.cfg.sectorSize (reqSector s).toNat = s.mem.readBlock (reqAddr s).toNat s.cfg.sectorSize ∧
        ∀ n, n ≠ (reqSector s).toNat → t.disk.read s.cfg.sectorSize n = s.disk.read s.cfg.sectorSize n) ∧
    (∀ v t, diskTransaction s = .done v t → t.mem = s.mem)

/-- R122: on the write path the range test comes before any storage access, so a range that exceeds main memory gives status 255
whatever the storage would answer, and nothing changes, the backing store included. That one answer of the storage is dropped
although no storage is called is the model's reading of R82 (log entry 10). -/
def Obligations.DiskWriteOverflowWritesNothing : Prop :=
  ∀ s : State, reqDirection s ≠ 0 → s.cfg.memSize < (reqAddr s).toNat + s.cfg.sectorSize →
    diskTransaction s = .done 255 (s.withEnv s.env.afterDisk)

/-- R123 (decision D14 of the spec): a failed write gives the error's status and leaves in the sector any `SECTOR_SIZE` bytes the storage
chooses; nothing else changes but the storage's answers still to come. -/
def Obligations.DiskWriteErrorTearsSector : Prop :=
  ∀ (s : State) (code : Nat) (torn : List Byte), s.inv = true → reqDirection s ≠ 0 →
    (reqAddr s).toNat + s.cfg.sectorSize ≤ s.cfg.memSize → s.env.diskAnswer = .returns (.error code torn) →
    torn.length = s.cfg.sectorSize →
    ∃ d, diskTransaction s = .done (errorStatus code) ((s.withEnv s.env.afterDisk).withDisk d) ∧
      d.read s.cfg.sectorSize (reqSector s).toNat = torn ∧
      ∀ n, n ≠ (reqSector s).toNat → d.read s.cfg.sectorSize n = s.disk.read s.cfg.sectorSize n

/-- R115, R124 (decision D14 of the spec: an error is never 0): the status of a storage error is the platform code when that is
in `1 .. 255`, and 255 otherwise. -/
def Obligations.ErrorStatusIsRepresentableCode : Prop :=
  ∀ code : Nat, (1 ≤ code → code ≤ 255 → (errorStatus code).toNat = code) ∧
    (code = 0 ∨ 255 < code → (errorStatus code).toNat = 255) ∧ 1 ≤ (errorStatus code).toNat

/-- R125 (marked as derived by the spec): a transaction changes no byte of `map`, so a second one repeats the same request. -/
def Obligations.TransactionKeepsRequest : Prop :=
  ∀ (s t : State) (v : Byte), diskTransaction s = .done v t →
    t.map = s.map ∧ reqSector t = reqSector s ∧ reqAddr t = reqAddr s ∧ reqDirection t = reqDirection s ∧
    t.ip = s.ip ∧ t.run = s.run ∧ t.cfg = s.cfg ∧ t.frames = s.frames

/-- R127 (marked as derived by the spec): a write-path transaction that returns 0, then, after anything that keeps that sector, a
read-path transaction of the same request that returns 0, restores the original bytes exactly. -/
def Obligations.DiskRoundTripRestoresBytes : Prop :=
  ∀ s s1 s2 s3 : State, s.inv = true → reqDirection s ≠ 0 → diskTransaction s = .done 0 s1 →
    s2.inv = true → s2.cfg = s.cfg → reqSector s2 = reqSector s → reqAddr s2 = reqAddr s → reqDirection s2 = 0 →
    s2.disk.read s.cfg.sectorSize (reqSector s).toNat = s1.disk.read s.cfg.sectorSize (reqSector s).toNat →
    diskTransaction s2 = .done 0 s3 →
    s3.mem.readBlock (reqAddr s).toNat s.cfg.sectorSize = s.mem.readBlock (reqAddr s).toNat s.cfg.sectorSize

/-- R46, R112, R33: only an access to mapped offset 0 changes the backing store or takes an answer of the storage. -/
def Obligations.OnlyTriggerReachesDisk : Prop :=
  ∀ (s t : State) (keys : Option (List Byte)) (i : Instr), runsNext s keys i → ¬ touchesTrigger s.cfg i →
    step s = .next t → t.disk = s.disk ∧ t.env.disk = s.env.disk

/-! ### Memory -/

/-- R52: below `MAP_START` the address is the main-memory offset itself; from it up, the mapped offset is the difference. -/
def Obligations.AddressDecoderSplitsAtMapStart : Prop :=
  ∀ (c : Config) (a : Word),
    (a.toNat < c.mapStart.toNat → decodeAddress c a = .mainMemory a.toNat) ∧
    (c.mapStart.toNat ≤ a.toNat → decodeAddress c a = .mapped (a - c.mapStart).toNat)

/-- R50: a byte written to main memory reads back until another write to it, whatever writes to other offsets lie between; out of
bounds, read and write both fault and change nothing. -/
def Obligations.MainWriteReadsBack : Prop :=
  ∀ (s : State) (f : Fatal) (i : Nat) (v : Byte), s.inv = true →
    (s.cfg.memSize < i + 1 → mainWriteByte f i v s = .raised f s ∧ mainReadByte f i s = .raised f s) ∧
    (i + 1 ≤ s.cfg.memSize → ∃ t, mainWriteByte f i v s = .done () t ∧ mainReadByte f i t = .done v t ∧
      ∀ ws u, (∀ w ∈ ws, w.1 ≠ i) → mainWrites f ws t = .done () u → mainReadByte f i u = .done v u)

/-- R51, R11, R43: the word at any offset is the sum of its eight bytes, least significant first; past the end the caller's fault. -/
def Obligations.MainReadWordIsLittleEndian : Prop :=
  ∀ (s : State) (f : Fatal) (i : Nat),
    (s.cfg.memSize < i + 8 → mainReadWord f i s = .raised f s) ∧
    (i + 8 ≤ s.cfg.memSize → ∃ w, mainReadWord f i s = .done w s ∧
      w.toNat = (s.mem.read i).toNat + (s.mem.read (i + 1)).toNat * 2 ^ 8 + (s.mem.read (i + 2)).toNat * 2 ^ 16 +
        (s.mem.read (i + 3)).toNat * 2 ^ 24 + (s.mem.read (i + 4)).toNat * 2 ^ 32 +
        (s.mem.read (i + 5)).toNat * 2 ^ 40 + (s.mem.read (i + 6)).toNat * 2 ^ 48 +
        (s.mem.read (i + 7)).toNat * 2 ^ 56)

/-- R42 (marked as derived by the spec): a word written as its eight bytes reads back as their little-endian assembly. -/
def Obligations.WordWrittenAsBytesReadsBack : Prop :=
  ∀ (m : Memory) (i : Nat) (w : Word), m.wf = true → (m.writeBlock i (bytes8 w)).word i = w

/-- R59 (marked as derived by the spec): when `MAP_START` lies below `MEM_SIZE`, the main-memory bytes from `MAP_START` up cannot be
written by a MOVE that does not run a transaction. -/
def Obligations.HiddenMemoryIsOutOfReach : Prop :=
  ∀ (s t : State) (keys : Option (List Byte)) (i : Instr) (x : Nat), s.inv = true → runsNext s keys i →
    ¬ touchesTrigger s.cfg i → step s = .next t → s.cfg.mapStart.toNat ≤ x → t.mem.read x = s.mem.read x

/-! ### Framebuffer and keyboard -/

/-- R139, R130: byte `k` of a frame is `map[FB_BASE + k]`, for every framebuffer byte, and a frame holds nothing else. -/
def Obligations.SnapshotIsFramebuffer : Prop :=
  ∀ (s : State) (k : Nat), (frameOf s).width = s.cfg.width ∧ (frameOf s).height = s.cfg.height ∧
    (frameOf s).pixels.read k = if k < s.cfg.fbSize then s.map.read (s.cfg.fbBase + k) else 0

/-- R134 (decisions D1 and D21 of the spec): the value of pixel `i` of a frame. -/
def Obligations.PixelIsLittleEndian : Prop :=
  ∀ (s : State) (i : Nat), i < s.cfg.width * s.cfg.height →
    ((frameOf s).pixel i).toNat = (s.map.read (s.cfg.fbBase + 4 * i)).toNat +
      (s.map.read (s.cfg.fbBase + 4 * i + 1)).toNat * 2 ^ 8 + (s.map.read (s.cfg.fbBase + 4 * i + 2)).toNat * 2 ^ 16 +
      (s.map.read (s.cfg.fbBase + 4 * i + 3)).toNat * 2 ^ 24

/-- R137: only a MOVE destination write changes the framebuffer: over a whole step, a framebuffer byte differs only if the fetched
instruction is a MOVE whose destination is its address. -/
def Obligations.OnlyMoveWritesFramebuffer : Prop :=
  ∀ (s t : State) (o : Nat), s.inv = true → step s = .next t → s.cfg.fbBase ≤ o → o < s.cfg.kbBase →
    t.map.read o ≠ s.map.read o →
    ∃ keys a b c, runsNext s keys (.move a b c) ∧ b.toNat = s.cfg.mapStart.toNat + o

/-- R146, R149: after a refresh with a snapshot `ks`, slot `j` holds `ks[j]`, or `KB_PAD` where there is none. R148 (decision D18 of
the spec): where `poll_keys()` answers `none`, the refresh changes nothing. -/
def Obligations.RefreshFillsSlots : Prop :=
  ∀ s : State,
    (∀ (ks : List Byte) (j : Nat), s.inv = true → j < 16 →
      keySlot (refresh (some ks) s) j = if h : j < ks.length then ks[j] else s.cfg.kbPad) ∧
    refresh none s = s

/-- R147: a snapshot of more than 16 keys is cut to its first 16. -/
def Obligations.RefreshCutsToSixteen : Prop :=
  ∀ (s : State) (ks : List Byte), 16 < ks.length → refresh (some ks) s = refresh (some (ks.take 16)) s

/-- R145: the refresh writes only the 16 keyboard slots. -/
def Obligations.RefreshWritesOnlySlots : Prop :=
  ∀ (s : State) (keys : Option (List Byte)), s.inv = true →
    (∀ o, o < s.cfg.kbBase ∨ s.cfg.kbBase + 16 ≤ o → (refresh keys s).map.read o = s.map.read o) ∧
    ∃ m, refresh keys s = s.withMap m

/-- R144, R151 (decision D19 of the spec for the first cycle): a MOVE from slot `j` in a cycle reads the snapshot polled at the start of
that cycle. -/
def Obligations.MoveSeesKeysOfItsCycle : Prop :=
  ∀ (s t : State) (ks : List Byte) (a b c : Word) (j : Nat), s.inv = true → runsNext s (some ks) (.move a b c) → j < 16 →
    a.toNat = s.cfg.mapStart.toNat + s.cfg.kbBase + j → selectsMain s.cfg b → step s = .next t →
    t.mem.read b.toNat = if h : j < ks.length then ks[j] else s.cfg.kbPad

/-! ### Invariants, reset, configuration -/

/-- The invariant of the machine's data (canonical memories inside their sizes, R24 and R25; whole sectors, R33 and R126) is kept by every
step, from every state that has it. -/
def Obligations.StepKeepsInvariant : Prop :=
  ∀ s t : State, s.inv = true → step s = .next t → t.inv = true

/-- The state after reset has the invariant. -/
def Obligations.ResetHasInvariant : Prop :=
  State.reset.inv = true

/-- R177: every launch, with any image and any backing store of whole sectors, has the invariant, also one that ends in a fault. -/
def Obligations.LaunchHasInvariant : Prop :=
  ∀ l : Launch, l.disk0.wf l.cfg.sectorSize = true → (launch l).inv = true

/-- R37: no step writes a configuration parameter. That State holds them is the model's choice (log entry 1). -/
def Obligations.StepKeepsConfiguration : Prop :=
  ∀ s t : State, step s = .next t → t.cfg = s.cfg

/-- R178: the image is loaded verbatim from offset 0, and one of at most `MEM_SIZE` bytes, that size included, is legal; a longer
one is fatal and no cycle runs. That the host's initialisation worked is one Boolean of the launch (log entry 15), and `step` of
a halted machine answers the fault `halted` (log entry 5). -/
def Obligations.ImageLoadsVerbatim : Prop :=
  ∀ l : Launch, l.hostReady = true →
    (l.image.length ≤ l.cfg.memSize →
      (∀ n, (launch l).run ≠ .halted (.fault (.imageTooLarge n))) ∧
      ∀ k, k < l.image.length → l.image[k]? = some ((launch l).mem.read k)) ∧
    (l.cfg.memSize < l.image.length →
      (launch l).run = .halted (.fault (.imageTooLarge l.image.length)) ∧
      step (launch l) = .fault (.halted (.fault (.imageTooLarge l.image.length))))

/-- R177, R178, R179, R180: a launch ends in the first failure that holds (the host, the image, the entry word), or starts Running at
the entry word, completed with zero bytes where the image is shorter. That the rest of memory is zero is decision D22 of the
spec, and that the host's failures are one Boolean is the model's choice (log entry 15). -/
def Obligations.LaunchStartsAtEntryWord : Prop :=
  ∀ l : Launch,
    (l.hostReady = false → (launch l).run = .halted (.fault .hostInit)) ∧
    (l.hostReady = true → l.cfg.memSize < l.image.length →
      (launch l).run = .halted (.fault (.imageTooLarge l.image.length))) ∧
    (l.hostReady = true → l.image.length ≤ l.cfg.memSize → l.cfg.memSize < 8 →
      (launch l).run = .halted (.fault .entryOob)) ∧
    (l.hostReady = true → l.image.length ≤ l.cfg.memSize → 8 ≤ l.cfg.memSize →
      (launch l).run = .running ∧ (launch l).ip.toNat = leNat (fit 8 l.image) ∧
      (launch l).ip = (launch l).mem.word 0 ∧ (launch l).disk = l.disk0 ∧ (launch l).frames = [])

/-- R40 for the machine of State.reset; that every byte is zero is decisions D22 and D23 of the spec, and the parameters, the
empty store and image and the environment are the model's choice (log entries 2, 4 and 8). -/
def Obligations.ResetValues : Prop :=
  State.reset.run = .running ∧ State.reset.ip = State.reset.mem.word 0 ∧ (∀ x, State.reset.mem.read x = 0) ∧
  (∀ o, State.reset.map.read o = 0) ∧ State.reset.frames = [] ∧
  State.reset = launch { cfg := Config.atReset, hostReady := true, image := [], disk0 := [], env := Env.free }

/-- R76 `jmp` (with R93, decision D10 of the spec): with a scratch byte of main memory it changes nothing but `ip`. -/
def Obligations.JumpChangesOnlyInstructionPointer : Prop :=
  ∀ (s : State) (scratch target : Word), s.inv = true → selectsMain s.cfg scratch →
    exec (jmpInstr scratch target) s = .next (s.withIp target)
end

