-- ==== Sys2Proof/Laws/Bytes.lean ====
section
/-! SUPPORT. The little-endian value of a byte sequence and the bytes of a number are inverse (R11, R41). -/

namespace Sys2Proof

@[simp] theorem bytesLE_length (n v : Nat) : (bytesLE n v).length = n := by
  induction n generalizing v with
  | zero => rfl
  | succ n ih => simp [bytesLE, ih]

theorem leNat_lt (bs : List Byte) : leNat bs < 256 ^ bs.length := by
  induction bs with
  | nil => simp [leNat]
  | cons b bs ih =>
    have hb : b.toNat < 256 := b.isLt
    simp only [leNat, List.length_cons, Nat.pow_succ]
    omega

theorem leNat_bytesLE (n v : Nat) : leNat (bytesLE n v) = v % 256 ^ n := by
  induction n generalizing v with
  | zero => simp [bytesLE, leNat, Nat.mod_one]
  | succ n ih =>
    have h : v % 256 ^ (n + 1) = v % 256 + 256 * (v / 256 % 256 ^ n) := by
      rw [Nat.pow_succ, Nat.mul_comm, Nat.mod_mul]
    simp [bytesLE, leNat, ih, h]

theorem bytesLE_leNat (bs : List Byte) : bytesLE bs.length (leNat bs) = bs := by
  induction bs with
  | nil => rfl
  | cons b bs ih =>
    have hb : b.toNat < 256 := b.isLt
    have hq : (b.toNat + 256 * leNat bs) / 256 = leNat bs := by omega
    have hr : BitVec.ofNat 8 (b.toNat + 256 * leNat bs) = b := by
      apply BitVec.eq_of_toNat_eq
      simp only [BitVec.toNat_ofNat]
      omega
    simp [bytesLE, leNat, hq, hr, ih]

@[simp] theorem bytes8_length (w : Word) : (bytes8 w).length = 8 := bytesLE_length 8 _

theorem word64_bytes8 (w : Word) : word64 (bytes8 w) = w := by
  have h : w.toNat < 2 ^ 64 := w.isLt
  apply BitVec.eq_of_toNat_eq
  simp only [word64, bytes8, leNat_bytesLE, BitVec.toNat_ofNat]
  omega

theorem word64_toNat {bs : List Byte} (h : bs.length = 8) : (word64 bs).toNat = leNat bs := by
  have hlt := leNat_lt bs
  rw [h] at hlt
  simp only [word64, BitVec.toNat_ofNat]
  omega

theorem bytes8_word64 {bs : List Byte} (h : bs.length = 8) : bytes8 (word64 bs) = bs := by
  rw [bytes8, word64_toNat h, ← h, bytesLE_leNat]

end Sys2Proof
end

