-- ==== Sys2Proof/Laws/Memory.lean ====
section
/-! SUPPORT. What a read gives after a write, and that every write keeps the canonical form and the bounds. -/

namespace Sys2Proof.Machine

section Cells

variable {α : Type} [DecidableEq α] {d : α}

theorem canonicalFrom_mono {lo lo' : Nat} {l : List (Nat × α)} (h : canonicalFrom d lo l = true) (hlo : lo' ≤ lo) :
    canonicalFrom d lo' l = true := by
  cases l with
  | nil => rfl
  | cons c l =>
    simp only [canonicalFrom, Bool.and_eq_true, decide_eq_true_eq] at h ⊢
    exact ⟨⟨by omega, h.1.2⟩, h.2⟩

theorem readCell_below {lo a : Nat} {l : List (Nat × α)} (h : canonicalFrom d lo l = true) (ha : a < lo) :
    readCell d l a = d := by
  induction l generalizing lo with
  | nil => rfl
  | cons c l ih =>
    simp only [canonicalFrom, Bool.and_eq_true, decide_eq_true_eq] at h
    rw [readCell, if_neg (by omega)]
    exact ih h.2 (by omega)

theorem canonicalFrom_writeCell {lo : Nat} {l : List (Nat × α)} (h : canonicalFrom d lo l = true) {a : Nat} (ha : lo ≤ a)
    (v : α) : canonicalFrom d lo (writeCell d l a v) = true := by
  induction l generalizing lo with
  | nil => by_cases hv : v = d <;> simp [writeCell, canonicalFrom, hv, ha]
  | cons c l ih =>
    obtain ⟨k, w⟩ := c
    have h' := h
    simp only [canonicalFrom, Bool.and_eq_true, decide_eq_true_eq] at h'
    obtain ⟨⟨hk, hw⟩, hl⟩ := h'
    rw [writeCell]
    split
    · split
      · exact h
      · simp_all [canonicalFrom]
    · split
      · subst a
        split
        · exact canonicalFrom_mono hl (by omega)
        · simp_all [canonicalFrom]
      · simp only [canonicalFrom, Bool.and_eq_true, decide_eq_true_eq]
        exact ⟨⟨hk, hw⟩, ih hl (by omega)⟩

theorem readCell_writeCell {lo : Nat} {l : List (Nat × α)} (h : canonicalFrom d lo l = true) (a : Nat) (v : α) (x : Nat) :
    readCell d (writeCell d l a v) x = if x = a then v else readCell d l x := by
  induction l generalizing lo with
  | nil => by_cases hv : v = d <;> by_cases hx : x = a <;> simp [writeCell, readCell, hv, hx]
  | cons c l ih =>
    obtain ⟨k, w⟩ := c
    simp only [canonicalFrom, Bool.and_eq_true, decide_eq_true_eq] at h
    obtain ⟨⟨hk, hw⟩, hl⟩ := h
    rw [writeCell]
    split
    · have hb : readCell d l a = d := readCell_below hl (by omega)
      by_cases hv : v = d <;> by_cases hx : x = a
      · subst x; simp [hv, readCell, hb]; omega
      · simp [hv, readCell, hx]
      · simp [hv, readCell, hx]
      · simp [hv, readCell, hx]
    · split
      · subst a
        have hb : readCell d l k = d := readCell_below hl (by omega)
        by_cases hv : v = d <;> by_cases hx : x = k <;> simp_all [readCell]
      · simp only [readCell, ih hl]
        split <;> split <;> first | rfl | omega

theorem canonicalFrom_ext {lo : Nat} {l l' : List (Nat × α)} (h : canonicalFrom d lo l = true)
    (h' : canonicalFrom d lo l' = true) (he : ∀ a, readCell d l a = readCell d l' a) : l = l' := by
  induction l generalizing lo l' with
  | nil =>
    cases l' with
    | nil => rfl
    | cons c l' =>
      simp only [canonicalFrom, Bool.and_eq_true, decide_eq_true_eq] at h'
      have := he c.1
      simp [readCell] at this
      exact absurd this.symm h'.1.2
  | cons c l ih =>
    obtain ⟨k, v⟩ := c
    simp only [canonicalFrom, Bool.and_eq_true, decide_eq_true_eq] at h
    cases l' with
    | nil =>
      have := he k
      simp [readCell] at this
      exact absurd this h.1.2
    | cons c' l' =>
      obtain ⟨k', v'⟩ := c'
      simp only [canonicalFrom, Bool.and_eq_true, decide_eq_true_eq] at h'
      have hk : k = k' := by
        rcases Nat.lt_trichotomy k k' with hlt | heq | hgt
        · have := he k
          rw [readCell, if_pos rfl, readCell, if_neg (by omega), readCell_below h'.2 (by omega)] at this
          exact absurd this h.1.2
        · exact heq
        · have := he k'
          rw [readCell, if_neg (by omega), readCell, if_pos rfl, readCell_below h.2 (by omega)] at this
          exact absurd this.symm h'.1.2
      subst k'
      have hv : v = v' := by simpa [readCell] using he k
      subst v'
      congr 1
      refine ih h.2 h'.2 fun a => ?_
      by_cases ha : a = k
      · subst a
        rw [readCell_below h.2 (by omega), readCell_below h'.2 (by omega)]
      · simpa [readCell, ha] using he a

theorem all_writeCell {p : Nat × α → Bool} {l : List (Nat × α)} (h : l.all p = true) {a : Nat} {v : α}
    (ha : p (a, v) = true) : (writeCell d l a v).all p = true := by
  induction l with
  | nil => by_cases hv : v = d <;> simp [writeCell, hv, ha]
  | cons c l ih =>
    simp only [List.all_cons, Bool.and_eq_true] at h
    simp only [writeCell]
    split
    · split <;> simp_all
    · split
      · split <;> simp_all
      · simp [h.1, ih h.2]

end Cells

theorem Memory.wf_write {m : Memory} (h : m.wf = true) (a : Nat) (v : Byte) : (m.write a v).wf = true :=
  canonicalFrom_writeCell h (Nat.zero_le a) v

theorem Memory.within_write {m : Memory} {n a : Nat} (h : m.within n = true) (ha : a < n) (v : Byte) :
    (m.write a v).within n = true :=
  all_writeCell h (by simpa using ha)

/-- Read after write: the written byte at its own address, every other byte as before. -/
theorem Memory.read_write {m : Memory} (h : m.wf = true) (a : Nat) (v : Byte) (x : Nat) :
    (m.write a v).read x = if x = a then v else m.read x :=
  readCell_writeCell h a v x

theorem Memory.ext_read {m m' : Memory} (h : m.wf = true) (h' : m'.wf = true) (he : ∀ a, m.read a = m'.read a) : m = m' :=
  canonicalFrom_ext h h' he

/-- Writing back the byte that is there changes nothing. -/
theorem Memory.write_read_self {m : Memory} (h : m.wf = true) (a : Nat) : m.write a (m.read a) = m :=
  ext_read (wf_write h a _) h fun x => by
    rw [read_write h]
    split
    · subst x; rfl
    · rfl

theorem Memory.wf_writeBlock {m : Memory} (h : m.wf = true) (i : Nat) (bs : List Byte) : (m.writeBlock i bs).wf = true := by
  induction bs generalizing m i with
  | nil => exact h
  | cons b bs ih => exact ih (wf_write h i b) (i + 1)

theorem Memory.within_writeBlock {m : Memory} {n : Nat} (h : m.within n = true) (i : Nat) (bs : List Byte)
    (hi : i + bs.length ≤ n) : (m.writeBlock i bs).within n = true := by
  induction bs generalizing m i with
  | nil => exact h
  | cons b bs ih =>
    simp only [List.length_cons] at hi
    exact ih (within_write h (by omega) b) (i + 1) (by omega)

/-- What a block write does: byte `k` of the block at `i + k`, every byte outside the block as before. -/
theorem Memory.read_writeBlock {m : Memory} (h : m.wf = true) (i : Nat) (bs : List Byte) (x : Nat) :
    (m.writeBlock i bs).read x = if i ≤ x then (bs[x - i]?).getD (m.read x) else m.read x := by
  induction bs generalizing m i with
  | nil => simp [writeBlock]
  | cons b bs ih =>
    rw [writeBlock, ih (wf_write h i b), read_write h]
    rcases Nat.lt_trichotomy x i with hx | hx | hx
    · rw [if_neg (by omega), if_neg (by omega), if_neg (by omega)]
    · subst x
      simp
    · have hs : x - i = x - (i + 1) + 1 := by omega
      rw [if_pos (by omega), if_neg (by omega), if_pos (by omega), hs, List.getElem?_cons_succ]

theorem Memory.read_writeBlock_outside {m : Memory} (h : m.wf = true) {i x : Nat} {bs : List Byte}
    (hx : x < i ∨ i + bs.length ≤ x) : (m.writeBlock i bs).read x = m.read x := by
  rw [read_writeBlock h]
  split
  · rw [List.getElem?_eq_none (by omega), Option.getD_none]
  · rfl

@[simp] theorem Memory.readBlock_length (m : Memory) (i n : Nat) : (m.readBlock i n).length = n := by
  induction n generalizing i with
  | zero => rfl
  | succ n ih => simp [readBlock, ih]

theorem Memory.readBlock_getElem? (m : Memory) {i n k : Nat} (hk : k < n) : (m.readBlock i n)[k]? = some (m.read (i + k)) := by
  induction n generalizing i k with
  | zero => omega
  | succ n ih =>
    cases k with
    | zero => simp [readBlock]
    | succ k =>
      rw [readBlock, List.getElem?_cons_succ, ih (by omega)]
      congr 2
      omega

theorem Memory.readBlock_congr {m m' : Memory} {i n : Nat} (h : ∀ x, i ≤ x → x < i + n → m.read x = m'.read x) :
    m.readBlock i n = m'.readBlock i n := by
  induction n generalizing i with
  | zero => rfl
  | succ n ih =>
    rw [readBlock, readBlock, h i (by omega) (by omega), ih fun x hx hx' => h x (by omega) (by omega)]

theorem Memory.readBlock_append (m : Memory) (i j k : Nat) :
    m.readBlock i (j + k) = m.readBlock i j ++ m.readBlock (i + j) k := by
  induction j generalizing i with
  | zero => simp [readBlock]
  | succ j ih =>
    rw [Nat.add_right_comm, readBlock, ih, readBlock, List.cons_append]
    congr 3
    omega

/-- A block reads back as it was written. -/
theorem Memory.readBlock_writeBlock {m : Memory} (h : m.wf = true) (i : Nat) (bs : List Byte) :
    (m.writeBlock i bs).readBlock i bs.length = bs := by
  apply List.ext_getElem?
  intro k
  by_cases hk : k < bs.length
  · rw [readBlock_getElem? _ hk, read_writeBlock h, if_pos (by omega), Nat.add_sub_cancel_left,
      List.getElem?_eq_getElem hk, Option.getD_some]
  · rw [List.getElem?_eq_none (by simpa using hk), List.getElem?_eq_none (by omega)]

@[simp] theorem fit_length (n : Nat) (bs : List Byte) : (fit n bs).length = n := by
  induction n generalizing bs with
  | zero => rfl
  | succ n ih => cases bs <;> simp [fit, ih]

theorem fit_of_length (bs : List Byte) : fit bs.length bs = bs := by
  induction bs with
  | nil => rfl
  | cons b bs ih => simp [fit, ih]

theorem Disk.wf_write {d : Disk} {size : Nat} (h : d.wf size = true) {sector : Nat} (hs : sector < 2 ^ 64) (data : List Byte) :
    (d.write size sector data).wf size = true := by
  simp only [wf, Bool.and_eq_true] at h ⊢
  exact ⟨canonicalFrom_writeCell h.1 (Nat.zero_le _) _, all_writeCell h.2 (by simpa using hs)⟩

@[simp] theorem Disk.read_length (d : Disk) (size sector : Nat) : (d.read size sector).length = size := fit_length _ _

/-- Read after write: the written sector holds the data, every other sector is as before. -/
theorem Disk.read_write {d : Disk} {size : Nat} (h : d.wf size = true) (sector : Nat) (data : List Byte) (x : Nat) :
    (d.write size sector data).read size x = if x = sector then fit size data else d.read size x := by
  simp only [wf, Bool.and_eq_true] at h
  rw [read, write, readCell_writeCell h.1]
  split
  · have := fit_of_length (fit size data)
    rwa [fit_length] at this
  · rfl

end Sys2Proof.Machine
end

