-- ==== Sys2Proof/Laws/State.lean ====
section
/-! SUPPORT. One lemma per field per named update of State, so that no proof unfolds a record update. -/

namespace Sys2Proof.Machine

variable (s : State)

@[simp] theorem State.withIp_cfg (v : Word) : (s.withIp v).cfg = s.cfg := rfl
@[simp] theorem State.withIp_ip (v : Word) : (s.withIp v).ip = v := rfl
@[simp] theorem State.withIp_run (v : Word) : (s.withIp v).run = s.run := rfl
@[simp] theorem State.withIp_mem (v : Word) : (s.withIp v).mem = s.mem := rfl
@[simp] theorem State.withIp_map (v : Word) : (s.withIp v).map = s.map := rfl
@[simp] theorem State.withIp_disk (v : Word) : (s.withIp v).disk = s.disk := rfl
@[simp] theorem State.withIp_frames (v : Word) : (s.withIp v).frames = s.frames := rfl
@[simp] theorem State.withIp_env (v : Word) : (s.withIp v).env = s.env := rfl

@[simp] theorem State.withRun_cfg (r : RunState) : (s.withRun r).cfg = s.cfg := rfl
@[simp] theorem State.withRun_ip (r : RunState) : (s.withRun r).ip = s.ip := rfl
@[simp] theorem State.withRun_run (r : RunState) : (s.withRun r).run = r := rfl
@[simp] theorem State.withRun_mem (r : RunState) : (s.withRun r).mem = s.mem := rfl
@[simp] theorem State.withRun_map (r : RunState) : (s.withRun r).map = s.map := rfl
@[simp] theorem State.withRun_disk (r : RunState) : (s.withRun r).disk = s.disk := rfl
@[simp] theorem State.withRun_frames (r : RunState) : (s.withRun r).frames = s.frames := rfl
@[simp] theorem State.withRun_env (r : RunState) : (s.withRun r).env = s.env := rfl

@[simp] theorem State.withMem_cfg (m : Memory) : (s.withMem m).cfg = s.cfg := rfl
@[simp] theorem State.withMem_ip (m : Memory) : (s.withMem m).ip = s.ip := rfl
@[simp] theorem State.withMem_run (m : Memory) : (s.withMem m).run = s.run := rfl
@[simp] theorem State.withMem_mem (m : Memory) : (s.withMem m).mem = m := rfl
@[simp] theorem State.withMem_map (m : Memory) : (s.withMem m).map = s.map := rfl
@[simp] theorem State.withMem_disk (m : Memory) : (s.withMem m).disk = s.disk := rfl
@[simp] theorem State.withMem_frames (m : Memory) : (s.withMem m).frames = s.frames := rfl
@[simp] theorem State.withMem_env (m : Memory) : (s.withMem m).env = s.env := rfl

@[simp] theorem State.withMap_cfg (m : Memory) : (s.withMap m).cfg = s.cfg := rfl
@[simp] theorem State.withMap_ip (m : Memory) : (s.withMap m).ip = s.ip := rfl
@[simp] theorem State.withMap_run (m : Memory) : (s.withMap m).run = s.run := rfl
@[simp] theorem State.withMap_mem (m : Memory) : (s.withMap m).mem = s.mem := rfl
@[simp] theorem State.withMap_map (m : Memory) : (s.withMap m).map = m := rfl
@[simp] theorem State.withMap_disk (m : Memory) : (s.withMap m).disk = s.disk := rfl
@[simp] theorem State.withMap_frames (m : Memory) : (s.withMap m).frames = s.frames := rfl
@[simp] theorem State.withMap_env (m : Memory) : (s.withMap m).env = s.env := rfl

@[simp] theorem State.withDisk_cfg (d : Disk) : (s.withDisk d).cfg = s.cfg := rfl
@[simp] theorem State.withDisk_ip (d : Disk) : (s.withDisk d).ip = s.ip := rfl
@[simp] theorem State.withDisk_run (d : Disk) : (s.withDisk d).run = s.run := rfl
@[simp] theorem State.withDisk_mem (d : Disk) : (s.withDisk d).mem = s.mem := rfl
@[simp] theorem State.withDisk_map (d : Disk) : (s.withDisk d).map = s.map := rfl
@[simp] theorem State.withDisk_disk (d : Disk) : (s.withDisk d).disk = d := rfl
@[simp] theorem State.withDisk_frames (d : Disk) : (s.withDisk d).frames = s.frames := rfl
@[simp] theorem State.withDisk_env (d : Disk) : (s.withDisk d).env = s.env := rfl

@[simp] theorem State.withFrame_cfg (f : Frame) : (s.withFrame f).cfg = s.cfg := rfl
@[simp] theorem State.withFrame_ip (f : Frame) : (s.withFrame f).ip = s.ip := rfl
@[simp] theorem State.withFrame_run (f : Frame) : (s.withFrame f).run = s.run := rfl
@[simp] theorem State.withFrame_mem (f : Frame) : (s.withFrame f).mem = s.mem := rfl
@[simp] theorem State.withFrame_map (f : Frame) : (s.withFrame f).map = s.map := rfl
@[simp] theorem State.withFrame_disk (f : Frame) : (s.withFrame f).disk = s.disk := rfl
@[simp] theorem State.withFrame_frames (f : Frame) : (s.withFrame f).frames = f :: s.frames := rfl
@[simp] theorem State.withFrame_env (f : Frame) : (s.withFrame f).env = s.env := rfl

@[simp] theorem State.withEnv_cfg (e : Env) : (s.withEnv e).cfg = s.cfg := rfl
@[simp] theorem State.withEnv_ip (e : Env) : (s.withEnv e).ip = s.ip := rfl
@[simp] theorem State.withEnv_run (e : Env) : (s.withEnv e).run = s.run := rfl
@[simp] theorem State.withEnv_mem (e : Env) : (s.withEnv e).mem = s.mem := rfl
@[simp] theorem State.withEnv_map (e : Env) : (s.withEnv e).map = s.map := rfl
@[simp] theorem State.withEnv_disk (e : Env) : (s.withEnv e).disk = s.disk := rfl
@[simp] theorem State.withEnv_frames (e : Env) : (s.withEnv e).frames = s.frames := rfl
@[simp] theorem State.withEnv_env (e : Env) : (s.withEnv e).env = e := rfl

end Sys2Proof.Machine
end

