-- ==== Sys2Proof/Laws/Devices.lean ====
section
/-! SUPPORT. The bytes a keyboard refresh writes (R146). -/

namespace Sys2Proof.Machine

@[simp] theorem slotBytes_length (pad : Byte) (n : Nat) (ks : List Byte) : (slotBytes pad n ks).length = n := by
  induction n generalizing ks with
  | zero => rfl
  | succ n ih => cases ks <;> simp [slotBytes, ih]

/-- Byte `j` of the slots is key `j`, or the pad value where there is no such key. -/
theorem slotBytes_getElem? (pad : Byte) {n j : Nat} (hj : j < n) (ks : List Byte) :
    (slotBytes pad n ks)[j]? = some ((ks[j]?).getD pad) := by
  induction n generalizing ks j with
  | zero => omega
  | succ n ih =>
    cases ks with
    | nil =>
      cases j with
      | zero => simp [slotBytes]
      | succ j => simp [slotBytes, ih (Nat.lt_of_succ_lt_succ hj)]
    | cons k ks =>
      cases j with
      | zero => simp [slotBytes]
      | succ j => simp [slotBytes, ih (Nat.lt_of_succ_lt_succ hj)]

end Sys2Proof.Machine
end

