-- ==== Sys2Proof/Laws/Disk.lean ====
section
/-! SUPPORT. Everything a disk transaction can do (R117), said once. -/

namespace Sys2Proof.Machine

theorem errorStatus_ne_zero (code : Nat) : errorStatus code ≠ statusOk := by
  unfold errorStatus statusOk
  split
  · intro h
    have := congrArg BitVec.toNat h
    simp at this
    omega
  · decide

theorem inMain_iff (c : Config) (i n : Nat) : inMain c i n = true ↔ i + n ≤ c.memSize := decide_eq_true_iff

theorem reqInMain_iff (s : State) : reqInMain s = true ↔ (reqAddr s).toNat + s.cfg.sectorSize ≤ s.cfg.memSize :=
  decide_eq_true_iff

@[simp] theorem reqInMain_withEnv (s : State) (e : Env) : reqInMain (s.withEnv e) = reqInMain s := rfl

@[simp] theorem reqSector_withEnv (s : State) (e : Env) : reqSector (s.withEnv e) = reqSector s := rfl

@[simp] theorem reqAddr_withEnv (s : State) (e : Env) : reqAddr (s.withEnv e) = reqAddr s := rfl

@[simp] theorem reqDirection_withEnv (s : State) (e : Env) : reqDirection (s.withEnv e) = reqDirection s := rfl

/-- The four ways a transaction completes. -/
inductive DiskCase (s : State) : Byte → State → Prop
  | rejected {v : Byte} (hv : v ≠ statusOk) (ho : reqInMain s = false ∨ reqDirection s = 0) :
      DiskCase s v (s.withEnv s.env.afterDisk)
  | readIn (hd : reqDirection s = 0) (ha : s.env.diskAnswer = .returns .ok) (hm : reqInMain s = true) :
      DiskCase s statusOk ((s.withEnv s.env.afterDisk).withMem
        (s.mem.writeBlock (reqAddr s).toNat (s.disk.read s.cfg.sectorSize (reqSector s).toNat)))
  | writtenOut (hd : reqDirection s ≠ 0) (ha : s.env.diskAnswer = .returns .ok) (hm : reqInMain s = true) :
      DiskCase s statusOk ((s.withEnv s.env.afterDisk).withDisk (s.disk.write s.cfg.sectorSize (reqSector s).toNat
        (s.mem.readBlock (reqAddr s).toNat s.cfg.sectorSize)))
  | torn (hd : reqDirection s ≠ 0) {code : Nat} {bytes : List Byte} (ha : s.env.diskAnswer = .returns (.error code bytes))
      (hm : reqInMain s = true) :
      DiskCase s (errorStatus code)
        ((s.withEnv s.env.afterDisk).withDisk (s.disk.write s.cfg.sectorSize (reqSector s).toNat bytes))

theorem diskTransaction_cases {s s' : State} {v : Byte} (h : diskTransaction s = .done v s') : DiskCase s v s' := by
  unfold diskTransaction at h
  split at h
  case isTrue hd =>
    unfold diskReadPath at h
    split at h
    · cases h
    · cases h
      exact .rejected (errorStatus_ne_zero _) (.inr hd)
    · next ha =>
      split at h
      · next hm =>
        cases h
        exact .readIn hd ha hm
      · cases h
        exact .rejected (by decide) (.inr hd)
  case isFalse hd =>
    unfold diskWritePath at h
    split at h
    · next hm =>
      split at h
      · cases h
      · next ha =>
        cases h
        exact .writtenOut hd ha hm
      · next ha =>
        cases h
        exact .torn hd ha hm
    · next hm =>
      cases h
      exact .rejected (by decide) (.inl (by simpa using hm))

/-- A transaction never faults (R117). -/
theorem diskTransaction_ne_raised (s s' : State) (f : Fatal) : diskTransaction s ≠ .raised f s' := by
  unfold diskTransaction diskReadPath diskWritePath
  split
  · split
    · simp
    · simp
    · split <;> simp
  · split
    · split <;> simp
    · simp

/-- A transaction changes only `mem`, `disk` and the answers still to come. -/
theorem DiskCase.frame {s s' : State} {v : Byte} (h : DiskCase s v s') :
    s'.cfg = s.cfg ∧ s'.ip = s.ip ∧ s'.run = s.run ∧ s'.map = s.map ∧ s'.frames = s.frames := by
  cases h <;> simp

end Sys2Proof.Machine
end

