-- ==== Sys2Proof/Laws/Operands.lean ====
section
/-! SUPPORT. Everything the decoded accesses and MOVE can do (R53 to R56, R85), said once. -/

namespace Sys2Proof.Machine

theorem inv_iff (s : State) : s.inv = true ↔ s.mem.wf = true ∧ s.mem.within s.cfg.memSize = true ∧ s.map.wf = true ∧
    s.map.within s.cfg.regionSize = true ∧ s.disk.wf s.cfg.sectorSize = true := by
  simp [State.inv, and_assoc]

theorem Res.bind_eq_done {α β : Type} {r : Res α} {k : α → State → Res β} {b : β} {t : State} :
    r.bind k = .done b t ↔ ∃ a s, r = .done a s ∧ k a s = .done b t := by
  cases r <;> simp [Res.bind]

theorem Res.bind_eq_raised {α β : Type} {r : Res α} {k : α → State → Res β} {f : Fatal} {t : State} :
    r.bind k = .raised f t ↔ r = .raised f t ∨ ∃ a s, r = .done a s ∧ k a s = .raised f t := by
  cases r <;> simp [Res.bind]

theorem Res.outcome_eq_next {r : Res Unit} {t : State} :
    r.outcome = .next t ↔ r = .done () t ∨ ∃ f s, r = .raised f s ∧ t = raiseFatal f s := by
  cases r <;> simp [Res.outcome, eq_comm]

theorem Res.bind_eq_stuck {α β : Type} {r : Res α} {k : α → State → Res β} {w : Fault} :
    r.bind k = .stuck w ↔ r = .stuck w ∨ ∃ a s, r = .done a s ∧ k a s = .stuck w := by
  cases r <;> simp [Res.bind]

theorem Res.outcome_eq_fault {r : Res Unit} {w : Fault} : r.outcome = .fault w ↔ r = .stuck w := by
  cases r <;> simp [Res.outcome]

theorem mainWriteByte_done {f : Fatal} {i : Nat} {v : Byte} {s t : State} :
    mainWriteByte f i v s = .done () t ↔ i + 1 ≤ s.cfg.memSize ∧ t = s.withMem (s.mem.write i v) := by
  unfold mainWriteByte
  split <;> simp [eq_comm] <;> omega

/-- Writes to main memory keep the invariant and every parameter. -/
theorem mainWrites_inv {f : Fatal} {ws : List (Nat × Byte)} {s t : State} (hi : s.inv = true)
    (h : mainWrites f ws s = .done () t) : t.inv = true ∧ t.cfg = s.cfg := by
  induction ws generalizing s with
  | nil =>
    cases h
    exact ⟨hi, rfl⟩
  | cons w ws ih =>
    obtain ⟨_, s1, h1, h⟩ := Res.bind_eq_done.1 h
    obtain ⟨hb, rfl⟩ := mainWriteByte_done.1 h1
    obtain ⟨hw, hn, hr⟩ := (inv_iff s).1 hi
    exact ih (s := s.withMem (s.mem.write w.1 w.2))
      ((inv_iff _).2 ⟨Memory.wf_write hw _ _, Memory.within_write hn (by omega) _, hr⟩) h

/-- The ways a decoded read completes: a main-memory byte, a mapped byte, or a transaction's status. -/
inductive ReadCase (a : Word) (s : State) : Byte → State → Prop
  | main (h : selectsMain s.cfg a) : ReadCase a s (s.mem.read a.toNat) s
  | mapped (h : selectsMapped s.cfg a) : ReadCase a s (s.map.read (mappedOffset s.cfg a)) s
  | disk (h : a = s.cfg.mapStart) {v : Byte} {s' : State} (hd : diskTransaction s = .done v s') : ReadCase a s v s'

theorem memRead_cases {role : Role} {a : Word} {s s' : State} {v : Byte} (h : memRead role a s = .done v s') :
    ReadCase a s v s' := by
  unfold memRead decodeAddress at h
  split at h
  · next i hi =>
    split at hi
    · next hlt =>
      cases hi
      unfold mainReadByte at h
      split at h
      · cases h
      · next hb =>
        cases h
        exact .main ⟨hlt, by omega⟩
    · cases hi
  · next o ho =>
    split at ho
    · cases ho
    · next hge =>
      cases ho
      unfold mapRead at h
      split at h
      · next h0 => exact .disk (BitVec.eq_of_toNat_eq (by omega)) h
      · split at h
        · cases h
        · next h0 hb =>
          cases h
          exact .mapped ⟨by omega, by omega⟩

theorem memRead_raised {role : Role} {a : Word} {s s' : State} {f : Fatal} (h : memRead role a s = .raised f s') :
    s' = s ∧ addressOk s.cfg a = false := by
  unfold memRead at h
  unfold addressOk
  split at h
  · next i hi =>
    unfold mainReadByte at h
    split at h
    · next hb =>
      cases h
      simpa [hi] using by omega
    · cases h
  · next o ho =>
    unfold mapRead at h
    split at h
    · exact absurd h (diskTransaction_ne_raised _ _ _)
    · split at h
      · next hb =>
        cases h
        simpa [ho] using by omega
      · cases h

/-- A read of a selected byte completes with that byte and changes nothing. -/
theorem memRead_selectsByte {role : Role} {a : Word} {s : State} (h : selectsByte s.cfg a) :
    memRead role a s = .done (operandByte s a) s := by
  rcases h with ⟨h1, h2⟩ | ⟨h1, h2⟩
  · simp [memRead, decodeAddress, operandByte, mainReadByte, h1]
    omega
  · have hn : ¬ a.toNat < s.cfg.mapStart.toNat := by omega
    have h0 : ¬ a.toNat - s.cfg.mapStart.toNat = 0 := by omega
    simp [memRead, decodeAddress, operandByte, mapRead, mappedOffset, hn, h0]
    omega

/-- A read at `MAP_START` runs a transaction. -/
theorem memRead_mapStart (role : Role) (s : State) : memRead role s.cfg.mapStart s = diskTransaction s := by
  simp [memRead, decodeAddress, mapRead]

/-- The ways a decoded write completes: a main-memory byte, a mapped byte, or a transaction. -/
inductive WriteCase (b : Word) (v : Byte) (s : State) : State → Prop
  | main (h : selectsMain s.cfg b) : WriteCase b v s (s.withMem (s.mem.write b.toNat v))
  | mapped (h : selectsMapped s.cfg b) : WriteCase b v s (s.withMap (s.map.write (mappedOffset s.cfg b) v))
  | disk (h : b = s.cfg.mapStart) {w : Byte} {s' : State} (hd : diskTransaction (storeOff0 v s) = .done w s') :
      WriteCase b v s s'

theorem memWrite_cases {role : Role} {b : Word} {v : Byte} {s s' : State} (h : memWrite role b v s = .done () s') :
    WriteCase b v s s' := by
  unfold memWrite decodeAddress at h
  split at h
  · next i hi =>
    split at hi
    · next hlt =>
      cases hi
      unfold mainWriteByte at h
      split at h
      · cases h
      · next hb =>
        cases h
        exact .main ⟨hlt, by omega⟩
    · cases hi
  · next o ho =>
    split at ho
    · cases ho
    · next hge =>
      cases ho
      unfold mapWrite at h
      split at h
      · next h0 =>
        obtain ⟨w, s1, hd, h1⟩ := Res.bind_eq_done.1 h
        cases h1
        exact .disk (BitVec.eq_of_toNat_eq (by omega)) hd
      · split at h
        · cases h
        · next h0 hb =>
          cases h
          exact .mapped ⟨by omega, by omega⟩

theorem memWrite_raised {role : Role} {b : Word} {v : Byte} {s s' : State} {f : Fatal}
    (h : memWrite role b v s = .raised f s') : s' = s ∧ addressOk s.cfg b = false := by
  unfold memWrite at h
  unfold addressOk
  split at h
  · next i hi =>
    unfold mainWriteByte at h
    split at h
    · next hb =>
      cases h
      simpa [hi] using by omega
    · cases h
  · next o ho =>
    unfold mapWrite at h
    split at h
    · rcases Res.bind_eq_raised.1 h with h | ⟨_, _, _, h⟩
      · exact absurd h (diskTransaction_ne_raised _ _ _)
      · cases h
    · split at h
      · next hb =>
        cases h
        simpa [ho] using by omega
      · cases h

theorem memWrite_selectsMain {role : Role} {b : Word} {v : Byte} {s : State} (h : selectsMain s.cfg b) :
    memWrite role b v s = .done () (s.withMem (s.mem.write b.toNat v)) := by
  obtain ⟨h1, h2⟩ := h
  simp [memWrite, decodeAddress, mainWriteByte, h1]
  omega

theorem memWrite_selectsMapped {role : Role} {b : Word} {v : Byte} {s : State} (h : selectsMapped s.cfg b) :
    memWrite role b v s = .done () (s.withMap (s.map.write (mappedOffset s.cfg b) v)) := by
  obtain ⟨h1, h2⟩ := h
  have hn : ¬ b.toNat < s.cfg.mapStart.toNat := by omega
  have h0 : ¬ b.toNat - s.cfg.mapStart.toNat = 0 := by omega
  simp [memWrite, decodeAddress, mapWrite, mappedOffset, hn, h0]
  omega

/-- A write at `MAP_START` stores or drops the byte, runs a transaction and discards its status. -/
theorem memWrite_mapStart (role : Role) (v : Byte) (s : State) :
    memWrite role s.cfg.mapStart v s = (diskTransaction (storeOff0 v s)).bind fun _ s1 => .done () s1 := by
  simp [memWrite, decodeAddress, mapWrite]

/-- An address outside its memory is a fatal read, recorded as R154 says. -/
theorem memRead_outside {role : Role} {a : Word} {s : State} :
    (a.toNat < s.cfg.mapStart.toNat → s.cfg.memSize ≤ a.toNat → memRead role a s = .raised (.memOob s.ip role a) s) ∧
    (s.cfg.mapStart.toNat + s.cfg.regionSize ≤ a.toNat → memRead role a s = .raised (.mapOob s.ip role a) s) := by
  refine ⟨fun h1 h2 => ?_, fun h1 => ?_⟩
  · simp [memRead, decodeAddress, mainReadByte, h1]
    omega
  · have hp : 0 < s.cfg.regionSize := by simp [Config.regionSize, kbLen]
    have hn : ¬ a.toNat < s.cfg.mapStart.toNat := by omega
    have h0 : ¬ a.toNat - s.cfg.mapStart.toNat = 0 := by omega
    simp [memRead, decodeAddress, mapRead, hn, h0]
    omega

/-- An address outside its memory is a fatal write, recorded as R154 says. -/
theorem memWrite_outside {role : Role} {b : Word} {v : Byte} {s : State} :
    (b.toNat < s.cfg.mapStart.toNat → s.cfg.memSize ≤ b.toNat → memWrite role b v s = .raised (.memOob s.ip role b) s) ∧
    (s.cfg.mapStart.toNat + s.cfg.regionSize ≤ b.toNat → memWrite role b v s = .raised (.mapOob s.ip role b) s) := by
  refine ⟨fun h1 h2 => ?_, fun h1 => ?_⟩
  · simp [memWrite, decodeAddress, mainWriteByte, h1]
    omega
  · have hp : 0 < s.cfg.regionSize := by simp [Config.regionSize, kbLen]
    have hn : ¬ b.toNat < s.cfg.mapStart.toNat := by omega
    have h0 : ¬ b.toNat - s.cfg.mapStart.toNat = 0 := by omega
    simp [memWrite, decodeAddress, mapWrite, hn, h0]
    omega

/-- Every address selects a stored byte, or is `MAP_START`, or lies outside its memory. -/
theorem address_cases (c : Config) (a : Word) :
    (selectsByte c a ∧ addressOk c a = true) ∨ (a = c.mapStart ∧ addressOk c a = true) ∨
    (addressOk c a = false ∧ ((a.toNat < c.mapStart.toNat ∧ c.memSize ≤ a.toNat) ∨
      c.mapStart.toNat + c.regionSize ≤ a.toNat)) := by
  have hp : 0 < c.regionSize := by simp [Config.regionSize, kbLen]
  by_cases hlt : a.toNat < c.mapStart.toNat
  · by_cases hm : a.toNat < c.memSize
    · exact .inl ⟨.inl ⟨hlt, hm⟩, by simp [addressOk, decodeAddress, hlt, hm]⟩
    · exact .inr (.inr ⟨by simp [addressOk, decodeAddress, hlt]; omega, .inl ⟨hlt, by omega⟩⟩)
  · by_cases he : a.toNat = c.mapStart.toNat
    · exact .inr (.inl ⟨BitVec.eq_of_toNat_eq he, by simp [addressOk, decodeAddress, he]; omega⟩)
    · by_cases hr : a.toNat < c.mapStart.toNat + c.regionSize
      · exact .inl ⟨.inr ⟨by omega, hr⟩, by simp [addressOk, decodeAddress, hlt]; omega⟩
      · exact .inr (.inr ⟨by simp [addressOk, decodeAddress, hlt]; omega, .inr (by omega)⟩)

/-- The ways MOVE ends in a next state: it completes, or its source or its destination faults. -/
inductive MoveCase (src dst next : Word) (s : State) : State → Prop
  | moved {v : Byte} {s1 s2 : State} (hr : ReadCase src s v s1) (hw : WriteCase dst v s1 s2) :
      MoveCase src dst next s (s2.withIp next)
  | sourceFault {f : Fatal} (h : addressOk s.cfg src = false) (hf : memRead .source src s = .raised f s) :
      MoveCase src dst next s (raiseFatal f s)
  | destinationFault {v : Byte} {s1 : State} {f : Fatal} (hr : ReadCase src s v s1) (h : addressOk s1.cfg dst = false)
      (hf : memWrite .destination dst v s1 = .raised f s1) : MoveCase src dst next s (raiseFatal f s1)

theorem execMove_cases {src dst next : Word} {s t : State} (h : execMove src dst next s = .next t) :
    MoveCase src dst next s t := by
  rcases Res.outcome_eq_next.1 h with hd | ⟨f, s', hx, rfl⟩
  · obtain ⟨v, s1, hr, hd⟩ := Res.bind_eq_done.1 hd
    obtain ⟨_, s2, hw, hd⟩ := Res.bind_eq_done.1 hd
    cases hd
    exact .moved (memRead_cases hr) (memWrite_cases hw)
  · rcases Res.bind_eq_raised.1 hx with hx | ⟨v, s1, hr, hx⟩
    · obtain ⟨rfl, ho⟩ := memRead_raised hx
      exact .sourceFault ho hx
    · rcases Res.bind_eq_raised.1 hx with hx | ⟨_, _, _, hx⟩
      · obtain ⟨rfl, ho⟩ := memWrite_raised hx
        exact .destinationFault (memRead_cases hr) ho hx
      · cases hx

/-- MOVE changes no parameter, no frame and, unless it faults, not the run state. -/
theorem ReadCase.frame {a : Word} {s s' : State} {v : Byte} (h : ReadCase a s v s') :
    s'.cfg = s.cfg ∧ s'.ip = s.ip ∧ s'.run = s.run ∧ s'.map = s.map ∧ s'.frames = s.frames := by
  cases h with
  | main => simp
  | mapped => simp
  | disk _ hd => exact (diskTransaction_cases hd).frame

@[simp] theorem storeOff0_frame (v : Byte) (s : State) : (storeOff0 v s).cfg = s.cfg ∧ (storeOff0 v s).ip = s.ip ∧
    (storeOff0 v s).run = s.run ∧ (storeOff0 v s).mem = s.mem ∧ (storeOff0 v s).disk = s.disk ∧
    (storeOff0 v s).frames = s.frames ∧ (storeOff0 v s).env = s.env := by
  unfold storeOff0
  split <;> simp

theorem WriteCase.frame {b : Word} {s s' : State} {v : Byte} (h : WriteCase b v s s') :
    s'.cfg = s.cfg ∧ s'.ip = s.ip ∧ s'.run = s.run ∧ s'.frames = s.frames := by
  cases h with
  | main => simp
  | mapped => simp
  | disk _ hd =>
    obtain ⟨h1, h2, h3, -, h5⟩ := (diskTransaction_cases hd).frame
    simp_all

end Sys2Proof.Machine
end

