-- ==== Sys2Proof/Laws/PerInstr.lean ====
section
/-! SUPPORT. Statements about every instruction as written: every encoding is 24 bytes long (R68). -/

namespace Sys2Proof.Laws.EncodedSize

/-- R68: the instruction's words are 24 bytes. -/
def Statement (i : Instr) : Prop := (encode i).length = instrBytes

theorem dbgtrap (start len : Word) : Statement (.dbgtrap start len) := by
  simp [Statement, encode, instrBytes]

theorem move (src dst next : Word) : Statement (.move src dst next) := by
  simp [Statement, encode, instrBytes]

end Sys2Proof.Laws.EncodedSize
end

