-- ==== Sys2Proof/Laws/Reset.lean ====
section
/-! SUPPORT. The four ways a launch ends (R177 to R179), and State.reset as one of them. -/

namespace Sys2Proof.Machine

@[simp] theorem launchLoaded_cfg (l : Launch) : (launchLoaded l).cfg = l.cfg := rfl

theorem launch_hostInit {l : Launch} (h : l.hostReady = false) : launch l = raiseFatal .hostInit (launchBlank l) := by
  rw [launch, if_pos h]

theorem launch_imageTooLarge {l : Launch} (h : l.hostReady = true) (hl : l.cfg.memSize < l.image.length) :
    launch l = raiseFatal (.imageTooLarge l.image.length) (launchBlank l) := by
  rw [launch, if_neg (by simp [h]), if_pos hl]

theorem launch_entryOob {l : Launch} (h : l.hostReady = true) (hl : l.image.length ≤ l.cfg.memSize)
    (hm : l.cfg.memSize < 8) : launch l = raiseFatal .entryOob (launchLoaded l) := by
  rw [launch, if_neg (by simp [h]), if_neg (Nat.not_lt.2 hl), mainReadWord, if_pos (by simpa using hm)]

theorem launch_running {l : Launch} (h : l.hostReady = true) (hl : l.image.length ≤ l.cfg.memSize)
    (hm : 8 ≤ l.cfg.memSize) : launch l = (launchLoaded l).withIp ((launchLoaded l).mem.word 0) := by
  rw [launch, if_neg (by simp [h]), if_neg (Nat.not_lt.2 hl), mainReadWord, if_neg (by simpa using hm)]

theorem reset_mem_wf : State.reset.mem.wf = true ∧ State.reset.map.wf = true := by decide

end Sys2Proof.Machine
end

