-- ==== Sys2Proof/Laws/Step.lean ====
section
/-! SUPPORT. Everything a step can do (R86), said once. -/

namespace Sys2Proof.Machine

theorem pollAndRefresh_done {s s' : State} {u : Unit} (h : pollAndRefresh s = .done u s') :
    ∃ keys, s.env.keysAnswer = .returns keys ∧ s' = refresh keys (s.withEnv s.env.afterKeys) := by
  unfold pollAndRefresh at h
  split at h
  · cases h
  · next keys hk =>
    cases h
    exact ⟨keys, hk, rfl⟩

theorem pollAndRefresh_ne_raised (s s' : State) (f : Fatal) : pollAndRefresh s ≠ .raised f s' := by
  unfold pollAndRefresh
  split <;> simp

theorem fetch_done {s s' : State} {i : Instr} (h : fetch s = .done i s') :
    s' = s ∧ s.ip.toNat + instrBytes ≤ s.cfg.memSize ∧
      i = decodeFields (s.mem.word s.ip.toNat) (s.mem.word (s.ip.toNat + 8)) (s.mem.word (s.ip.toNat + 16)) := by
  unfold fetch at h
  split at h
  · exact absurd h (by simp)
  · next hb =>
    simp only [Res.done.injEq] at h
    exact ⟨h.2.symm, by omega, h.1.symm⟩

theorem fetch_raised {s s' : State} {f : Fatal} (h : fetch s = .raised f s') :
    s' = s ∧ s.cfg.memSize < s.ip.toNat + instrBytes ∧ f = .fetchOob s.ip := by
  unfold fetch at h
  split at h
  · next hb =>
    simp only [Res.raised.injEq] at h
    exact ⟨h.2.symm, by omega, h.1.symm⟩
  · exact absurd h (by simp)

@[simp] theorem refresh_frame (keys : Option (List Byte)) (s : State) : (refresh keys s).cfg = s.cfg ∧
    (refresh keys s).ip = s.ip ∧ (refresh keys s).run = s.run ∧ (refresh keys s).mem = s.mem ∧
    (refresh keys s).disk = s.disk ∧ (refresh keys s).frames = s.frames ∧ (refresh keys s).env = s.env := by
  simp [refresh]

/-- Steps 1 to 3 end in a fetched instruction or a fatal fetch, after the refresh. -/
theorem beginCycle_done {s s' : State} {i : Instr} (h : beginCycle s = .done i s') :
    ∃ keys, s.env.keysAnswer = .returns keys ∧ s' = refresh keys (s.withEnv s.env.afterKeys) ∧ fetch s' = .done i s' := by
  obtain ⟨_, s1, hp, hf⟩ := Res.bind_eq_done.1 h
  obtain ⟨keys, hk, rfl⟩ := pollAndRefresh_done hp
  obtain ⟨rfl, -⟩ := fetch_done hf
  exact ⟨keys, hk, rfl, hf⟩

theorem beginCycle_raised {s s' : State} {f : Fatal} (h : beginCycle s = .raised f s') :
    ∃ keys, s.env.keysAnswer = .returns keys ∧ s' = refresh keys (s.withEnv s.env.afterKeys) ∧ f = .fetchOob s.ip ∧
      s.cfg.memSize < s.ip.toNat + instrBytes := by
  rcases Res.bind_eq_raised.1 h with h | ⟨_, s1, hp, hf⟩
  · exact absurd h (pollAndRefresh_ne_raised _ _ _)
  · obtain ⟨keys, hk, rfl⟩ := pollAndRefresh_done hp
    obtain ⟨rfl, hb, rfl⟩ := fetch_raised hf
    exact ⟨keys, hk, rfl, by simp, by simpa using hb⟩

theorem wordAt_readBlock {m : Memory} {i n k : Nat} (h : k + 8 ≤ n) :
    wordAt (m.readBlock i n) k = m.word (i + k) := by
  have hs : n = k + (8 + (n - k - 8)) := by omega
  rw [wordAt, hs, Memory.readBlock_append, Memory.readBlock_append]
  simp [Memory.word]

/-- The 24 bytes at `ip` decode to the instruction the fetch reads (R69). -/
theorem decode_readBlock (m : Memory) (ip : Nat) :
    decode (m.readBlock ip instrBytes) = .instr (decodeFields (m.word ip) (m.word (ip + 8)) (m.word (ip + 16))) [] := by
  have h0 := wordAt_readBlock (m := m) (i := ip) (n := instrBytes) (k := 0) (by decide)
  have h8 := wordAt_readBlock (m := m) (i := ip) (n := instrBytes) (k := 8) (by decide)
  have h16 := wordAt_readBlock (m := m) (i := ip) (n := instrBytes) (k := 16) (by decide)
  rw [Nat.add_zero] at h0
  simp [decode, h0, h8, h16, List.drop_eq_nil_of_le]

/-- Where a next instruction is foreseen, steps 1 to 3 reach it. -/
theorem beginCycle_runsNext {s : State} {keys : Option (List Byte)} {i : Instr} (h : runsNext s keys i) :
    beginCycle s = .done i (afterRefresh keys s) := by
  obtain ⟨-, hk, hb, hd⟩ := h
  rw [decode_readBlock, Decoded.instr.injEq] at hd
  simp [beginCycle, pollAndRefresh, hk, Res.bind, fetch, ← hd.1, afterRefresh]
  omega

/-- Step 7 either passes a halted state through, or presents a frame and asks for liveness. -/
theorem endCycle_next {s t : State} (h : endCycle s = .next t) :
    (s.run ≠ .running ∧ t = s) ∨
    (s.run = .running ∧ ∃ isOpen, s.env.presentAnswer = .returns () ∧ s.env.afterPresent.openAnswer = .returns isOpen ∧
      t = ((s.withFrame (frameOf s)).withEnv s.env.afterPresent.afterOpen).withRun (livenessRun isOpen)) := by
  unfold endCycle at h
  split at h
  · next hr =>
    cases h
    exact .inl ⟨by simp [hr], rfl⟩
  · next hr =>
    split at h
    · cases h
    · next hp =>
      split at h
      · cases h
      · next isOpen ho =>
        cases h
        exact .inr ⟨hr, isOpen, hp, ho, rfl⟩

/-- The ways a step ends in a next state: a fatal fetch, or an instruction and the end of its cycle. -/
inductive StepCase (s : State) : State → Prop
  | fetchFault {keys : Option (List Byte)} (hr : s.run = .running) (hk : s.env.keysAnswer = .returns keys)
      (hb : s.cfg.memSize < s.ip.toNat + instrBytes) :
      StepCase s (raiseFatal (.fetchOob s.ip) (refresh keys (s.withEnv s.env.afterKeys)))
  | ran {keys : Option (List Byte)} {i : Instr} {s1 s2 t : State} (hr : s.run = .running)
      (hk : s.env.keysAnswer = .returns keys) (h1 : s1 = refresh keys (s.withEnv s.env.afterKeys))
      (hf : fetch s1 = .done i s1) (hx : exec i s1 = .next s2) (he : endCycle s2 = .next t) : StepCase s t

theorem step_cases {s t : State} (h : step s = .next t) : StepCase s t := by
  unfold step at h
  split at h
  · cases h
  · next hr =>
    split at h
    · cases h
    · next f s1 hb =>
      obtain ⟨keys, hk, rfl, rfl, hlt⟩ := beginCycle_raised hb
      cases h
      exact .fetchFault hr hk hlt
    · next i s1 hb =>
      obtain ⟨keys, hk, h1, hf⟩ := beginCycle_done hb
      split at h
      · next s2 hx => exact .ran hr hk h1 hf hx h
      · cases h
      · cases h

end Sys2Proof.Machine
end

