-- ==== Sys2Proof/Tests/Slice0.lean ====
section
/-! SUPPORT. Tests from the spec's encodings and vectors (95_test_vectors.md), and for each statement with hypotheses a state and
operands that meet them. -/

namespace Sys2Proof.Tests

open Sys2Proof.Machine

/-! ### The test machine -/

/-- Test configuration T of 95_test_vectors.md, with sectors of 4 bytes to keep the tests small. -/
def cfgT : Config where
  mapStart := 0x10000
  memWords := 256
  width := 2
  height := 2
  sectorSize := 4
  drqSize := .padded
  kbPad := 0x00
  off0WriteStores := false

/-- `MAP_START` of `cfgT`. -/
def mapT : Word := 0x10000

/-- Configuration T with `MAP_START` below `MEM_SIZE` (vector V-DEC-6). -/
def cfgLow : Config := { cfgT with mapStart := 0x500 }

/-- Configuration T with `OFF0_WRITE_STORES = true` (vector V-DISK-9). -/
def cfgStores : Config := { cfgT with off0WriteStores := true }

/-- The inputs of configuration T: no key, storage that succeeds twice, an open sink. -/
def envT : Env where
  keys := [.returns (some []), .returns (some [])]
  disk := [.returns .ok, .returns .ok]
  present := [.returns (), .returns ()]
  isOpen := [.returns true, .returns true]
  draws := 0

/-- Write single bytes. -/
def poke : Memory → List (Nat × Byte) → Memory
  | m, [] => m
  | m, (a, v) :: ps => poke (m.write a v) ps

/-- Entry word 8 and an instruction at offset 8, with some bytes of main memory and of the mapped region. -/
def at8 (c : Config) (i : Instr) (mem map : List (Nat × Byte)) : State where
  cfg := c
  ip := 8
  run := .running
  mem := poke (Memory.writeBlock [] 0 (bytes8 8 ++ encode i)) mem
  map := poke [] map
  disk := []
  frames := []
  env := envT

/-- `at8` with main memory only. -/
def at8T (i : Instr) : State := at8 cfgT i [(100, 0xAB), (0x300, 0x07), (2047, 0x99)] []

/-- The mapped bytes of a request for sector 0 with `addr` below `2^16` and a direction. -/
def request (addrLow addrHigh direction : Byte) : List (Nat × Byte) :=
  [(8, addrLow), (9, addrHigh), (16, direction)]

/-- A machine about to read `MAP_START`, with a request, an answer of the storage and a backing store. -/
def atDisk (req : List (Nat × Byte)) (answer : Reply DiskAnswer) (d : Disk) : State :=
  { at8 cfgT (.move mapT 0x310 8) [(0x400, 1), (0x401, 2), (0x402, 3), (0x403, 4)] req with
    disk := d, env := { envT with disk := [answer, .returns .ok] } }

/-- A test of the next state. -/
def nextIs (o : Host.Outcome State Fault Refusal) (p : State → Bool) : Bool :=
  match o with
  | .next t => p t
  | _ => false

/-! ### Well-formedness and decoding -/

theorem test_wellFormed_refuses_sentinel_source : (Instr.move sentinel 0 0).wellFormed = false := by decide

theorem test_wellFormed_accepts_all_ones_elsewhere :
    (Instr.move 0xFFFFFFFFFFFFFFFE sentinel sentinel).wellFormed = true ∧
      (Instr.dbgtrap sentinel sentinel).wellFormed = true := by decide

-- L1.6, R77: `mov 100, 101, 0`.
theorem test_decode_move : decode [0x64, 0, 0, 0, 0, 0, 0, 0, 0x65, 0, 0, 0, 0, 0, 0, 0, 0, 0, 0, 0, 0, 0, 0, 0] =
    .instr (.move 100 101 0) [] := by decide

-- P4, offset 8: a mapped source.
theorem test_decode_move_mapped :
    decode [0x28, 0, 1, 0, 0, 0, 0, 0, 0x30, 0, 0, 0, 0, 0, 0, 0, 0x20, 0, 0, 0, 0, 0, 0, 0, 0xAA] =
      .instr (.move 0x10028 0x30 0x20) [0xAA] := by decide

-- L1.7, R77: `dbg 0x400, 4`.
theorem test_decode_dbgtrap :
    decode [0xFF, 0xFF, 0xFF, 0xFF, 0xFF, 0xFF, 0xFF, 0xFF, 0, 4, 0, 0, 0, 0, 0, 0, 4, 0, 0, 0, 0, 0, 0, 0] =
      .instr (.dbgtrap 0x400 4) [] := by decide

-- R71: one bit short of the sentinel is a MOVE.
theorem test_decode_next_to_sentinel :
    decode [0xFF, 0xFF, 0xFF, 0xFF, 0xFF, 0xFF, 0xFF, 0x7F, 0, 0, 0, 0, 0, 0, 0, 0, 0, 0, 0, 0, 0, 0, 0, 1] =
      .instr (.move 0x7FFFFFFFFFFFFFFF 0 0x100000000000000) [] := by decide

theorem test_decode_rejects_truncated : decode (List.replicate 23 0) = .rejected (.truncated 23) := by decide

-- The opcode table's two rows, with fields of zeros.
theorem test_decodeTableWord_rows : decodeTableWord 192 0 = some (.move 0 0 0) ∧
    decodeTableWord 192 0xFFFFFFFFFFFFFFFF = some (.dbgtrap 0 0) := by decide

-- V-MEM-3: a little-endian word at an unaligned offset.
theorem test_word_unaligned : Memory.word (Memory.writeBlock [] 0
    [0, 1, 2, 3, 4, 5, 6, 7, 8, 9, 0x0A, 0x0B, 0x0C, 0x0D, 0x0E, 0x0F]) 3 = 0x0A09080706050403 := by decide

/-! ### Reset and the first instruction -/

theorem test_reset_is_a_launch : State.reset =
    launch { cfg := Config.atReset, hostReady := true, image := [], disk0 := [], env := Env.free } := by decide

-- V-MEM-1, V-RST-4: the entry word is completed with zero bytes.
theorem test_launch_short_image :
    (launch { cfg := cfgT, hostReady := true, image := [0x10, 2], disk0 := [], env := envT }).ip = 0x210 := by decide

theorem test_step_from_reset_runs_move : nextIs (step (State.reset.withFetchWord 192 (0x40 * 2 ^ 128)))
    (fun t => t.ip == 0x40) = true := by decide

theorem test_step_from_reset_runs_dbgtrap : nextIs (step (State.reset.withFetchWord 192 0xFFFFFFFFFFFFFFFF))
    (fun t => t.run == .halted (.debugTrap [])) = true := by decide

-- R10: the default layout.
theorem test_default_layout : Config.atReset.fbSize = 960000 ∧ Config.atReset.kbBase = 960024 ∧
    Config.atReset.regionSize = 960040 ∧ { Config.atReset with drqSize := .packed }.regionSize = 960033 := by decide

/-! ### Instructions: the spec's vectors -/

-- V-DISK-9: the byte is stored first, so the request is sector 7.
theorem test_move_to_trigger_stores_first :
    nextIs (step { at8 cfgStores (.move 0x300 mapT 8) [(0x300, 7)] (request 0 1 0) with disk := [(7, [9, 9, 9, 9])] })
      (fun t => t.map.read 0 == 7 && t.mem.readBlock 0x100 4 == [9, 9, 9, 9]) = true := by decide

-- V-MOV-4: a fault at the destination does not undo the transaction of the source.
theorem test_move_fault_keeps_transfer : nextIs (step (at8T (.move mapT (mapT + 56) 8)))
    (fun t => t.run == .halted (.fault (.mapOob 8 .destination (mapT + 56))) && t.ip == 8 && t.mem.read 0 == 0 &&
      t.frames == []) = true := by decide

-- V-DBG-1: the entry word is dumped, no frame.
theorem test_dbgtrap_dumps_entry_word : nextIs (step (at8T (.dbgtrap 0 8)))
    (fun t => t.run == .halted (.debugTrap [8, 0, 0, 0, 0, 0, 0, 0]) && t.ip == 8 && t.frames == []) = true := by decide

-- V-DBG-6: the sum is unbounded.
theorem test_dbgtrap_sum_is_unbounded : nextIs (step (at8T (.dbgtrap 1 0xFFFFFFFFFFFFFFFF)))
    (fun t => t.run == .halted (.fault (.dumpOob 8 1 0xFFFFFFFFFFFFFFFF))) = true := by decide

-- V-FB-4: byte 39 is the high byte of pixel 3, at column 1, row 1.
theorem test_pixel_high_byte : (frameOf (at8 cfgT (.move 0 0 8) [] [(39, 0x80)])).pixel 3 = 0x80000000 ∧
    cfgT.pixelColumn 3 = 1 ∧ cfgT.pixelRow 3 = 1 := by decide

-- V-KB-2: the pad value; V-KB-4: `none` leaves the slots.
theorem test_refresh_pads : let s := at8 { cfgT with kbPad := 0xFF } (.move 0 0 8) [] []
    (refresh (some [1, 2, 3]) s).map.readBlock 40 5 = [1, 2, 3, 0xFF, 0xFF] ∧
      refresh none s = s := by decide

-- P2, offsets 0 to 31, from its source text: two labels and a mapped operand.
theorem test_assemble_first_pixel_move :
    (assemble cfgT 201 [.word (.literal 8), .org 8, .mov (.literal 200) (.mapped 24) (.label 1 0), .label 1, .spin]).map
        (fun m => m.readBlock 0 56) =
      some ([8, 0, 0, 0, 0, 0, 0, 0] ++
        [0xC8, 0, 0, 0, 0, 0, 0, 0, 0x18, 0, 1, 0, 0, 0, 0, 0, 0x20, 0, 0, 0, 0, 0, 0, 0] ++
        [0xC9, 0, 0, 0, 0, 0, 0, 0, 0xC9, 0, 0, 0, 0, 0, 0, 0, 0x20, 0, 0, 0, 0, 0, 0, 0]) := by decide

/-! ### Witnesses: the hypotheses of each statement can be met -/

theorem witness_DecodeOfEncode : (Instr.move 0xFFFFFFFFFFFFFFFE sentinel sentinel).wellFormed = true ∧
    (Instr.dbgtrap sentinel 0).wellFormed = true := by decide

theorem witness_EncodeOfDecode : decode (List.replicate 25 0xFF) = .instr (.dbgtrap sentinel sentinel) [0xFF] := by decide

theorem witness_HaltedMachineHasNoStep :
    ({ at8T (.move 0 0 8) with run := .halted .windowClosed } : State).run = .halted .windowClosed := by decide

theorem witness_StepRunsDecodedInstruction : runsNext (at8T (.move 100 101 8)) (some []) (.move 100 101 8) := by decide

theorem witness_StepRunsDecodedInstruction_dbgtrap : runsNext (at8T (.dbgtrap 0 8)) (some []) (.dbgtrap 0 8) := by decide

-- V-FET-1: `2025 + 24 = 2049 > 2048`.
theorem witness_FetchOutsideMemoryHalts : let s := (at8T (.move 0 0 8)).withIp 2025
    s.run = .running ∧ s.env.keysAnswer = .returns (some []) ∧ s.cfg.memSize < s.ip.toNat + 24 := by decide

theorem witness_EndOfCycle_open : let s := at8T (.move 0 0 8)
    s.run = .running ∧ s.env.presentAnswer = .returns () ∧ s.env.afterPresent.openAnswer = .returns true := by decide

/-- The sink closes in this cycle. -/
def envClosed : Env := { envT with isOpen := [.returns false] }

theorem witness_EndOfCycle_closed : let s := (at8T (.move 0 0 8)).withEnv envClosed
    s.run = .running ∧ s.env.presentAnswer = .returns () ∧ s.env.afterPresent.openAnswer = .returns false := by decide

/-- Every call of this environment hangs. -/
def envHangs : Env := { envT with keys := [.hangs], disk := [.hangs], present := [.hangs], isOpen := [.hangs] }

theorem witness_HostCallThatHangs_keys_present : let s := (at8T (.move 0 0 8)).withEnv envHangs
    s.run = .running ∧ s.env.keysAnswer = .hangs ∧ s.env.presentAnswer = .hangs := by decide

theorem witness_HostCallThatHangs_open : let s := (at8T (.move 0 0 8)).withEnv { envT with isOpen := [.hangs] }
    s.run = .running ∧ s.env.presentAnswer = .returns () ∧ s.env.afterPresent.openAnswer = .hangs := by decide

theorem witness_HostCallThatHangs_read : let s := atDisk (request 0 4 0) .hangs []
    reqDirection s = 0 ∧ s.env.diskAnswer = .hangs := by decide

-- The range ends exactly at `MEM_SIZE`.
theorem witness_HostCallThatHangs_write : let s := atDisk (request 0xFC 7 1) .hangs []
    reqDirection s ≠ 0 ∧ (reqAddr s).toNat + s.cfg.sectorSize = s.cfg.memSize ∧ s.env.diskAnswer = .hangs := by decide

-- The storage hangs in a MOVE from the trigger, in one to it, and in the second transaction of one between the two.
theorem witness_HostCallThatHangs_move : let s := atDisk (request 0 4 0) .hangs []
    runsNext s (some []) (.move mapT 0x310 8) ∧ selectsByte s.cfg 0x300 ∧
      diskTransaction (storeOff0 (operandByte s 0x300) s) = .stuck (.neverReturns .diskRead) ∧
      exec (.move mapT 0x310 8) (afterRefresh (some []) s) = .fault (.neverReturns .diskRead) :=
  ⟨by decide, by decide, by decide, rfl⟩

theorem witness_HostCallThatHangs_second :
    let s := (atDisk (request 0 4 0) (.returns .ok) []).withEnv { envT with disk := [.returns .ok, .hangs] }
    ∃ s1, diskTransaction s = .done 0 s1 ∧ diskTransaction (storeOff0 0 s1) = .stuck (.neverReturns .diskRead) :=
  ⟨_, rfl, by decide⟩

theorem witness_HostCallThatHangs_end : let s := (at8T (.move 0 0 8)).withEnv { envT with isOpen := [.hangs] }
    runsNext s (some []) (.move 0 0 8) ∧
      ∃ t, exec (.move 0 0 8) (afterRefresh (some []) s) = .next t ∧ endCycle t = .fault (.neverReturns .isOpen) :=
  ⟨by decide, _, rfl, rfl⟩

theorem witness_CompletedMoveJumps : runsNext (at8T (.move 0 0 2025)) (some []) (.move 0 0 2025) ∧
    ∃ t, step (at8T (.move 0 0 2025)) = .next t ∧ t.faulted = false ∧ t.run = .running ∧
      t.env.keysAnswer = .returns (some []) ∧ t.cfg.memSize < (2025 : Word).toNat + 24 :=
  ⟨by decide, _, rfl, by decide, by decide, by decide, by decide⟩

theorem witness_OneFrame_running : ∃ t, step (at8T (.move 100 101 8)) = .next t ∧ t.run = .running :=
  ⟨_, rfl, by decide⟩

theorem witness_OneFrame_closed :
    ∃ t, step ((at8T (.move 100 101 8)).withEnv envClosed) = .next t ∧ t.run = .halted .windowClosed :=
  ⟨_, rfl, by decide⟩

theorem witness_OneFrame_fault : ∃ t, step (at8T (.move 2048 0 8)) = .next t ∧ t.faulted = true :=
  ⟨_, rfl, by decide⟩

theorem witness_OneFrame_trap : ∃ t, step (at8T (.dbgtrap 2048 0)) = .next t ∧ t.run = .halted (.debugTrap []) :=
  ⟨_, rfl, by decide⟩

theorem witness_FetchSeesLatestWrite : let s := (at8T (.move 0 0 8)).withIp 2024
    s.mem.wf = true ∧ s.ip.toNat + 24 = s.cfg.memSize ∧ s.ip.toNat ≤ 2024 ∧ 2047 < s.ip.toNat + 24 := by decide

-- First and last byte of each memory that an operand can select: all four forms.
theorem witness_MoveCopiesOneByte : let s := at8T (.move 0 0 8)
    s.inv = true ∧ selectsMain s.cfg 0 ∧ selectsMain s.cfg 2047 ∧ selectsMapped s.cfg (mapT + 1) ∧
      selectsMapped s.cfg (mapT + 55) := by decide

theorem witness_MoveFromTrigger : let s := atDisk (request 0 4 0) (.returns .ok) [(0, [5, 6, 7, 8])]
    s.inv = true ∧ selectsByte s.cfg 0x310 ∧ ∃ s1, diskTransaction s = .done 0 s1 ∧ s1.mem.read 0x400 = 5 :=
  ⟨by decide, by decide, _, rfl, by decide⟩

theorem witness_MoveToTrigger_drops : let s := at8 cfgT (.move 0x300 mapT 8) [(0x300, 7)] (request 0 4 1)
    selectsByte s.cfg 0x300 ∧ s.cfg.off0WriteStores = false ∧
      ∃ s1, diskTransaction s = .done 0 s1 :=
  ⟨by decide, by decide, _, rfl⟩

theorem witness_MoveToTrigger_stores : let s := at8 cfgStores (.move 0x300 mapT 8) [(0x300, 7)] (request 0 4 1)
    selectsByte s.cfg 0x300 ∧ s.cfg.off0WriteStores = true ∧
      ∃ s1, diskTransaction (s.withMap (s.map.write 0 (operandByte s 0x300))) = .done 0 s1 :=
  ⟨by decide, by decide, _, rfl⟩

theorem witness_MoveTriggerToTrigger_drops : let s := atDisk (request 0 4 0) (.returns .ok) []
    s.inv = true ∧ s.cfg.off0WriteStores = false ∧
      ∃ s1, diskTransaction s = .done 0 s1 ∧ ∃ s3, diskTransaction s1 = .done 0 s3 :=
  ⟨by decide, by decide, _, rfl, _, rfl⟩

theorem witness_MoveTriggerToTrigger_stores :
    let s := { atDisk (request 0 4 0) (.returns (.error 13 [])) [] with cfg := cfgStores }
    s.inv = true ∧ s.cfg.off0WriteStores = true ∧ ∃ s1, diskTransaction s = .done 13 s1 ∧
      ∃ s3, diskTransaction (s1.withMap (s1.map.write 0 13)) = .done 0 s3 :=
  ⟨by decide, by decide, _, rfl, _, rfl⟩

theorem witness_SourceOutside : let c := cfgT
    (2048 : Word).toNat < c.mapStart.toNat ∧ c.memSize = (2048 : Word).toNat ∧
      c.mapStart.toNat + c.regionSize = (mapT + 56).toNat := by decide

theorem witness_DestinationOutside_stored : let s := at8T (.move 100 2048 8)
    selectsByte s.cfg 100 ∧ (2048 : Word).toNat < s.cfg.mapStart.toNat ∧ s.cfg.memSize = (2048 : Word).toNat ∧
      s.cfg.mapStart.toNat + s.cfg.regionSize = (mapT + 56).toNat := by decide

theorem witness_DestinationOutside_trigger :
    mapT = (at8T (.move mapT 2048 8)).cfg.mapStart ∧ ∃ s1, diskTransaction (at8T (.move mapT 2048 8)) = .done 0 s1 :=
  ⟨by decide, _, rfl⟩

theorem witness_FaultLeavesInstructionPointer :
    ∃ t, step (at8T (.move 0 0xFFFF 8)) = .next t ∧ t.run = .halted (.fault (.memOob 8 .destination 0xFFFF)) :=
  ⟨_, rfl, by decide⟩

theorem witness_FirstCondition_fetch : let s := (at8T (.move 0 0 8)).withIp 2025
    s.run = .running ∧ s.env.keysAnswer = .returns (some []) ∧ s.cfg.memSize < s.ip.toNat + 24 ∧
      ∃ t, step s = .next t :=
  ⟨by decide, by decide, by decide, _, rfl⟩

theorem witness_FirstCondition_dump : let s := at8T (.dbgtrap 2040 9)
    runsNext s (some []) (.dbgtrap 2040 9) ∧ s.cfg.memSize + 1 = (2040 : Word).toNat + (9 : Word).toNat ∧
      ∃ t, step s = .next t :=
  ⟨by decide, by decide, _, rfl⟩

theorem witness_FirstCondition_trap : let s := at8T (.dbgtrap 2040 8)
    runsNext s (some []) (.dbgtrap 2040 8) ∧ (2040 : Word).toNat + (8 : Word).toNat = s.cfg.memSize ∧
      ∃ t, step s = .next t :=
  ⟨by decide, by decide, _, rfl⟩

-- V-PRI-3: both operands out of range.
theorem witness_FirstCondition_source : let s := at8T (.move 2048 (mapT + 56) 8)
    runsNext s (some []) (.move 2048 (mapT + 56) 8) ∧ addressOk s.cfg 2048 = false ∧ ∃ t, step s = .next t :=
  ⟨by decide, by decide, _, rfl⟩

theorem witness_FirstCondition_destination : let s := at8T (.move 2047 (mapT + 56) 8)
    runsNext s (some []) (.move 2047 (mapT + 56) 8) ∧ addressOk s.cfg 2047 = true ∧
      addressOk s.cfg (mapT + 56) = false ∧ ∃ t, step s = .next t :=
  ⟨by decide, by decide, by decide, _, rfl⟩

theorem witness_FirstCondition_completes : let s := at8T (.move 2047 (mapT + 55) 8)
    runsNext s (some []) (.move 2047 (mapT + 55) 8) ∧ addressOk s.cfg 2047 = true ∧
      addressOk s.cfg (mapT + 55) = true ∧ ∃ t, step s = .next t :=
  ⟨by decide, by decide, by decide, _, rfl⟩

theorem witness_FrameOfMoveWithoutTrigger : let s := at8T (.move 100 2047 8)
    s.inv = true ∧ (100 : Word) ≠ s.cfg.mapStart ∧ (2047 : Word) ≠ s.cfg.mapStart ∧
      ∃ t, exec (.move 100 2047 8) s = .next t ∧ t.mem.read 2047 = 0xAB :=
  ⟨by decide, by decide, by decide, _, rfl, by decide⟩

theorem witness_FrameOfMoveFromTrigger : let s := atDisk (request 0 4 0) (.returns .ok) [(0, [5, 6, 7, 8])]
    s.inv = true ∧ (0x403 : Word) ≠ s.cfg.mapStart ∧
      ∃ t, exec (.move s.cfg.mapStart 0x403 8) s = .next t ∧ t.mem.readBlock 0x400 4 = [5, 6, 7, 0] :=
  ⟨by decide, by decide, _, rfl, by decide⟩

theorem witness_FrameOfMoveToTrigger : let s := at8 cfgStores (.move 0x300 mapT 8) [(0x300, 7)] (request 0 4 1)
    s.inv = true ∧ (0x300 : Word) ≠ s.cfg.mapStart ∧
      ∃ t, exec (.move 0x300 s.cfg.mapStart 8) s = .next t ∧ t.map.read 0 = 7 :=
  ⟨by decide, by decide, _, rfl, by decide⟩

theorem witness_FrameOfMoveTriggerToTrigger : let s := atDisk (request 0 4 1) (.returns .ok) []
    s.inv = true ∧ (∃ s1, diskTransaction s = .done 0 s1) ∧
      ∃ t, exec (.move s.cfg.mapStart s.cfg.mapStart 8) s = .next t ∧ t.disk = [(0, [1, 2, 3, 4])] :=
  ⟨by decide, ⟨_, rfl⟩, _, rfl, by decide⟩

-- A dump that ends at `MEM_SIZE`, one at or above `MAP_START`, and an empty one.
theorem witness_DebugTrapDumps : (2040 : Word).toNat + (8 : Word).toNat = cfgT.memSize ∧
    cfgLow.mapStart.toNat ≤ (0x600 : Word).toNat ∧ (0x600 : Word).toNat + (2 : Word).toNat ≤ cfgLow.memSize ∧
    (2048 : Word).toNat + (0 : Word).toNat = cfgT.memSize := by decide

theorem witness_DebugTrapOutside : cfgT.memSize + 1 = (2040 : Word).toNat + (9 : Word).toNat := by decide

theorem witness_FrameOfDebugTrap : ∃ t, exec (.dbgtrap 0 8) (at8T (.dbgtrap 0 8)) = .next t := ⟨_, rfl⟩

theorem witness_DebugTrapCycle : runsNext (at8T (.dbgtrap 2048 0)) (some []) (.dbgtrap 2048 0) := by decide

theorem witness_DiskReadCopies : let s := atDisk (request 0xFC 7 0) (.returns .ok) [(0, [5, 6, 7, 8])]
    s.inv = true ∧ reqDirection s = 0 ∧ s.env.diskAnswer = .returns .ok ∧
      (reqAddr s).toNat + s.cfg.sectorSize = s.cfg.memSize := by decide

theorem witness_DiskReadOverflow : let s := atDisk (request 0xFD 7 0) (.returns .ok) [(0, [5, 6, 7, 8])]
    reqDirection s = 0 ∧ s.env.diskAnswer = .returns .ok ∧
      s.cfg.memSize + 1 = (reqAddr s).toNat + s.cfg.sectorSize := by decide

theorem witness_DiskReadError : let s := atDisk (request 0xFD 7 0) (.returns (.error 2 [])) []
    reqDirection s = 0 ∧ s.env.diskAnswer = .returns (.error 2 []) := by decide

theorem witness_DiskWriteStores : let s := atDisk (request 0xFC 7 0x80) (.returns .ok) []
    s.inv = true ∧ reqDirection s ≠ 0 ∧ s.env.diskAnswer = .returns .ok ∧
      (reqAddr s).toNat + s.cfg.sectorSize = s.cfg.memSize ∧ ∃ t, diskTransaction s = .done 0 t :=
  ⟨by decide, by decide, by decide, by decide, _, rfl⟩

theorem witness_DiskWriteOverflow : let s := atDisk (request 0xFD 7 1) .hangs []
    reqDirection s ≠ 0 ∧ s.cfg.memSize + 1 = (reqAddr s).toNat + s.cfg.sectorSize := by decide

theorem witness_DiskWriteError : let s := atDisk (request 0 4 0x80) (.returns (.error 13 [1, 2, 3, 0])) []
    s.inv = true ∧ reqDirection s ≠ 0 ∧ (reqAddr s).toNat + s.cfg.sectorSize ≤ s.cfg.memSize ∧
      s.env.diskAnswer = .returns (.error 13 [1, 2, 3, 0]) ∧ [1, 2, 3, (0 : Byte)].length = s.cfg.sectorSize := by decide

theorem witness_TransactionKeepsRequest :
    ∃ t, diskTransaction (atDisk (request 0 4 1) (.returns (.error 13 [9, 9, 9, 9])) []) = .done 13 t := ⟨_, rfl⟩

-- Write sector 0 from 0x400, clobber 0x400, read it back.
theorem witness_DiskRoundTrip : let s := atDisk (request 0 4 1) (.returns .ok) []
    s.inv = true ∧ reqDirection s ≠ 0 ∧ ∃ s1, diskTransaction s = .done 0 s1 ∧
      let s2 := (s1.withMem (s1.mem.write 0x400 0)).withMap (s1.map.write 16 0)
      s2.inv = true ∧ s2.cfg = s.cfg ∧ reqSector s2 = reqSector s ∧ reqAddr s2 = reqAddr s ∧ reqDirection s2 = 0 ∧
        s2.disk.read s.cfg.sectorSize (reqSector s).toNat = s1.disk.read s.cfg.sectorSize (reqSector s).toNat ∧
        ∃ s3, diskTransaction s2 = .done 0 s3 ∧ s3.mem.read 0x400 = 1 :=
  ⟨by decide, by decide, _, rfl, by decide, by decide, by decide, by decide, by decide, by decide, _, rfl, by decide⟩

theorem witness_OnlyTriggerReachesDisk : let s := at8T (.move 100 101 8)
    runsNext s (some []) (.move 100 101 8) ∧ ¬ touchesTrigger s.cfg (.move 100 101 8) ∧ ∃ t, step s = .next t :=
  ⟨by decide, by simp [touchesTrigger, at8T, at8, cfgT], _, rfl⟩

theorem witness_AddressDecoder : (mapT - 1).toNat < cfgT.mapStart.toNat ∧ cfgT.mapStart.toNat ≤ mapT.toNat := by decide

theorem witness_MainWriteReadsBack : let s := at8T (.move 0 0 8)
    s.inv = true ∧ s.cfg.memSize < 2048 + 1 ∧ 2047 + 1 ≤ s.cfg.memSize ∧
      ∃ t u, mainWriteByte .entryOob 2047 5 s = .done () t ∧
        mainWrites .entryOob [(2046, 6), (0, 9), (2046, 7)] t = .done () u :=
  ⟨by decide, by decide, by decide, _, _, rfl, rfl⟩

theorem witness_MainReadWord : cfgT.memSize < 2041 + 8 ∧ 2040 + 8 ≤ cfgT.memSize := by decide

theorem witness_WordWritten : Memory.wf [(3, 7)] = true := by decide

-- V-DEC-6: 0x530 lies in both ranges.
theorem witness_HiddenMemory : let s := at8 cfgLow (.move 0x300 0x530 8) [(0x300, 0x66), (0x530, 0x13)] []
    s.inv = true ∧ runsNext s (some []) (.move 0x300 0x530 8) ∧ ¬ touchesTrigger s.cfg (.move 0x300 0x530 8) ∧
      s.cfg.mapStart.toNat ≤ 0x530 ∧ ∃ t, step s = .next t ∧ t.map.read 0x30 = 0x66 :=
  ⟨by decide, by decide, by simp [touchesTrigger, at8, cfgLow], by decide, _, rfl, by decide⟩

theorem witness_PixelIsLittleEndian : 3 < cfgT.width * cfgT.height := by decide

theorem witness_OnlyMoveWritesFramebuffer : let s := at8T (.move 0x300 (mapT + 24) 8)
    s.inv = true ∧ s.cfg.fbBase = 24 ∧ 24 < s.cfg.kbBase ∧
      ∃ t, step s = .next t ∧ t.map.read 24 ≠ s.map.read 24 :=
  ⟨by decide, by decide, by decide, _, rfl, by decide⟩

theorem witness_RefreshFillsSlots : (at8T (.move 0 0 8)).inv = true ∧ 0 < 16 ∧ 15 < 16 ∧
    keySlot (refresh (some [0x18, 0x41]) (at8T (.move 0 0 8))) 1 = 0x41 := by decide

theorem witness_RefreshCuts : 16 < (List.replicate 17 (1 : Byte)).length := by decide

theorem witness_RefreshWritesOnlySlots : (at8T (.move 0 0 8)).inv = true ∧ 39 < cfgT.kbBase ∧
    cfgT.kbBase + 16 ≤ 56 := by decide

-- V-KB-7, at the first and the last slot.
theorem witness_MoveSeesKeys :
    let s := { at8T (.move (mapT + 40) 0x320 8) with env := { envT with keys := [.returns (some [0x33])] } }
    s.inv = true ∧ runsNext s (some [0x33]) (.move (mapT + 40) 0x320 8) ∧
      (mapT + 40).toNat = s.cfg.mapStart.toNat + s.cfg.kbBase + 0 ∧
      (mapT + 55).toNat = s.cfg.mapStart.toNat + s.cfg.kbBase + 15 ∧ selectsMain s.cfg 0x320 ∧
      ∃ t, step s = .next t ∧ t.mem.read 0x320 = 0x33 :=
  ⟨by decide, by decide, by decide, by decide, by decide, _, rfl, by decide⟩

theorem witness_StepKeepsInvariant : (at8T (.move 100 101 8)).inv = true ∧ ∃ t, step (at8T (.move 100 101 8)) = .next t :=
  ⟨by decide, _, rfl⟩

theorem witness_LaunchHasInvariant : Disk.wf [(0, [1, 2, 3, 4]), (256, [0, 0, 0, 1])] cfgT.sectorSize = true := by decide

/-- A launch of a machine with `w` words of memory and the image `bs`. -/
def launchOf (w : Nat) (bs : List Byte) : Launch :=
  { cfg := { cfgT with memWords := w }, hostReady := true, image := bs, disk0 := [], env := envT }

-- V-RST-1, V-RST-2 with a memory of one word.
theorem witness_ImageLoads : (launchOf 1 (List.replicate 8 1)).image.length = (launchOf 1 []).cfg.memSize ∧
    (launchOf 1 []).cfg.memSize < (launchOf 1 (List.replicate 9 1)).image.length := by decide

-- An image too long for a memory that also holds no entry word; V-RST-3, and the smallest memory that holds an entry word.
theorem witness_LaunchStarts : (launchOf 0 [1]).cfg.memSize < (launchOf 0 [1]).image.length ∧
    (launchOf 0 []).cfg.memSize < 8 ∧ (launchOf 0 []).image.length ≤ (launchOf 0 []).cfg.memSize ∧
    8 ≤ (launchOf 1 [1]).cfg.memSize ∧
    (launchOf 1 [1]).image.length ≤ (launchOf 1 [1]).cfg.memSize ∧
    ({ launchOf 1 [] with hostReady := false } : Launch).hostReady = false := by decide

theorem witness_JumpChangesOnly : (at8T (jmpInstr 201 0x20)).inv = true ∧ selectsMain cfgT 201 := by decide

end Sys2Proof.Tests
end

section
/-! The configuration is kept (R37): operation by operation, then for a whole step. -/

namespace Sys2Proof.Machine

@[simp] theorem halt_cfg (r : HaltReason) (s : State) : (halt r s).cfg = s.cfg := rfl

@[simp] theorem raiseFatal_cfg (f : Fatal) (s : State) : (raiseFatal f s).cfg = s.cfg := rfl

/-- DBGTRAP only ever halts the machine, with a dump or with `DUMP_OOB` (R105, R106). -/
theorem execDbgTrap_next {start len : Word} {s t : State} (h : execDbgTrap start len s = .next t) :
    ∃ r, t = halt r s := by
  unfold execDbgTrap at h
  split at h
  · cases h
    exact ⟨_, rfl⟩
  · cases h
    exact ⟨_, rfl⟩

theorem MoveCase.cfg_eq {src dst next : Word} {s t : State} (h : MoveCase src dst next s t) : t.cfg = s.cfg := by
  cases h with
  | moved hr hw => exact hw.frame.1.trans hr.frame.1
  | sourceFault => rfl
  | destinationFault hr => exact hr.frame.1

theorem exec_cfg {i : Instr} {s t : State} (h : exec i s = .next t) : t.cfg = s.cfg := by
  cases i with
  | dbgtrap start len =>
    obtain ⟨r, rfl⟩ := execDbgTrap_next h
    exact halt_cfg r s
  | move src dst next => exact (execMove_cases h).cfg_eq

theorem endCycle_cfg {s t : State} (h : endCycle s = .next t) : t.cfg = s.cfg := by
  rcases endCycle_next h with ⟨-, rfl⟩ | ⟨-, _, -, -, rfl⟩
  · rfl
  · simp

theorem StepCase.cfg_eq {s t : State} (h : StepCase s t) : t.cfg = s.cfg := by
  cases h with
  | fetchFault => simp
  | @ran keys i s1 s2 _ _ _ h1 _ hx he =>
    calc t.cfg = s2.cfg := endCycle_cfg he
      _ = s1.cfg := exec_cfg hx
      _ = s.cfg := by simp [h1]

/-- Settles O56: the refresh, the instruction and the end of the cycle each keep the configuration. -/
theorem stepKeepsConfiguration : Obligations.StepKeepsConfiguration := by
  intro s t h
  exact (step_cases h).cfg_eq

end Sys2Proof.Machine
end

section
/-! Main memory (R49 to R51, R65): what its byte and word accesses answer, what writes to other offsets keep, and what a fetch
sees of a write. -/

namespace Sys2Proof.Machine

theorem mainReadByte_inside {f : Fatal} {i : Nat} {s : State} (h : i + 1 ≤ s.cfg.memSize) :
    mainReadByte f i s = .done (s.mem.read i) s := if_neg (by omega)

theorem mainReadByte_outside {f : Fatal} {i : Nat} {s : State} (h : s.cfg.memSize < i + 1) :
    mainReadByte f i s = .raised f s := if_pos h

theorem mainWriteByte_outside {f : Fatal} {i : Nat} {v : Byte} {s : State} (h : s.cfg.memSize < i + 1) :
    mainWriteByte f i v s = .raised f s := if_pos h

theorem mainReadWord_inside {f : Fatal} {i : Nat} {s : State} (h : i + 8 ≤ s.cfg.memSize) :
    mainReadWord f i s = .done (s.mem.word i) s := if_neg (by omega)

theorem mainReadWord_outside {f : Fatal} {i : Nat} {s : State} (h : s.cfg.memSize < i + 8) :
    mainReadWord f i s = .raised f s := if_pos h

theorem fetch_inside {s : State} (h : s.ip.toNat + instrBytes ≤ s.cfg.memSize) :
    fetch s = .done (decodeFields (s.mem.word s.ip.toNat) (s.mem.word (s.ip.toNat + 8)) (s.mem.word (s.ip.toNat + 16))) s :=
  if_neg (by omega)

/-- The word at any byte offset, written out (R11, R43). -/
theorem Memory.word_toNat (m : Memory) (i : Nat) :
    (m.word i).toNat = (m.read i).toNat + (m.read (i + 1)).toNat * 2 ^ 8 + (m.read (i + 2)).toNat * 2 ^ 16 +
      (m.read (i + 3)).toNat * 2 ^ 24 + (m.read (i + 4)).toNat * 2 ^ 32 + (m.read (i + 5)).toNat * 2 ^ 40 +
      (m.read (i + 6)).toNat * 2 ^ 48 + (m.read (i + 7)).toNat * 2 ^ 56 := by
  rw [word, word64_toNat (readBlock_length m i 8)]
  simp only [readBlock, leNat]
  ring

/-- A block read after a write inside the block is the old block with that byte replaced. -/
theorem Memory.readBlock_write {m : Memory} (h : m.wf = true) {i n x : Nat} (hi : i ≤ x) (v : Byte) :
    (m.write x v).readBlock i n = (m.readBlock i n).set (x - i) v := by
  apply List.ext_getElem?
  intro k
  by_cases hk : k < n
  · have hx : i + k = x ↔ x - i = k := by omega
    rw [readBlock_getElem? _ hk, read_write h, List.getElem?_set, readBlock_getElem? _ hk]
    simp only [hx, readBlock_length]
    split
    · next he => rw [if_pos (he ▸ hk)]
    · rfl
  · rw [List.getElem?_eq_none (by simpa using hk), List.getElem?_eq_none (by simpa using hk)]

/-- Writes to other offsets keep the byte at `i`. -/
theorem mainWrites_read_other {f : Fatal} {i : Nat} {ws : List (Nat × Byte)} {s t : State} (hm : s.mem.wf = true)
    (ho : ∀ w ∈ ws, w.1 ≠ i) (h : mainWrites f ws s = .done () t) : t.mem.read i = s.mem.read i := by
  induction ws generalizing s with
  | nil =>
    cases h
    rfl
  | cons w ws ih =>
    obtain ⟨_, s1, h1, h⟩ := Res.bind_eq_done.1 h
    obtain ⟨-, rfl⟩ := mainWriteByte_done.1 h1
    obtain ⟨hw, hws⟩ := List.forall_mem_cons.1 ho
    calc t.mem.read i = (s.mem.write w.1 w.2).read i := ih (s := s.withMem _) (Memory.wf_write hm _ _) hws h
      _ = s.mem.read i := by rw [Memory.read_write hm, if_neg hw.symm]

/-- Settles O41: the split is the decoder's own test, and from `MAP_START` up the word difference does not wrap. -/
theorem addressDecoderSplitsAtMapStart : Obligations.AddressDecoderSplitsAtMapStart := by
  intro c a
  refine ⟨fun hlt => if_pos hlt, fun hge => ?_⟩
  rw [decodeAddress, if_neg (by omega), BitVec.toNat_sub_of_le hge]

/-- Settles O43: inside main memory by the eight bytes of the word, past the end by the bounds test. -/
theorem mainReadWordIsLittleEndian : Obligations.MainReadWordIsLittleEndian := by
  intro s f i
  exact ⟨mainReadWord_outside, fun h => ⟨_, mainReadWord_inside h, s.mem.word_toNat i⟩⟩

/-- Settles O42: read after write, and by induction on the writes in between none of which touches the offset. -/
theorem mainWriteReadsBack : Obligations.MainWriteReadsBack := by
  intro s f i v hi
  have hm : s.mem.wf = true := ((inv_iff s).1 hi).1
  have hm' : (s.mem.write i v).wf = true := Memory.wf_write hm i v
  have hv : (s.mem.write i v).read i = v := by rw [Memory.read_write hm, if_pos rfl]
  refine ⟨fun h => ⟨mainWriteByte_outside h, mainReadByte_outside h⟩, fun h => ?_⟩
  have hwrite : mainWriteByte f i v s = .done () (s.withMem (s.mem.write i v)) := mainWriteByte_done.2 ⟨h, rfl⟩
  refine ⟨_, hwrite, ?_, fun ws u ho hu => ?_⟩
  · rw [mainReadByte_inside (s := s.withMem (s.mem.write i v)) h, State.withMem_mem, hv]
  · have hcfg : u.cfg = s.cfg :=
      (mainWrites_inv (ws := (i, v) :: ws) hi (Res.bind_eq_done.2 ⟨(), _, hwrite, hu⟩)).2
    rw [mainReadByte_inside (by rwa [hcfg]), mainWrites_read_other hm' ho hu, State.withMem_mem, hv]

/-- Settles O14: the fetch decodes the 24 bytes as the write leaves them, which are the old ones with one replaced. -/
theorem fetchSeesLatestWrite : Obligations.FetchSeesLatestWrite := by
  intro s x v hm hin hlo _
  refine ⟨_, fetch_inside hin, ?_⟩
  rw [← Memory.readBlock_write hm hlo]
  exact decode_readBlock (s.mem.write x v) s.ip.toNat

end Sys2Proof.Machine
end

section
/-! Instructions that do not access the disk trigger (R46, R59, R112): what they can write, and that the refresh and the end of
the cycle add nothing to it. -/

namespace Sys2Proof.Machine

@[simp] theorem raiseFatal_mem (f : Fatal) (s : State) : (raiseFatal f s).mem = s.mem := rfl

@[simp] theorem raiseFatal_map (f : Fatal) (s : State) : (raiseFatal f s).map = s.map := rfl

@[simp] theorem raiseFatal_disk (f : Fatal) (s : State) : (raiseFatal f s).disk = s.disk := rfl

@[simp] theorem raiseFatal_frames (f : Fatal) (s : State) : (raiseFatal f s).frames = s.frames := rfl

@[simp] theorem raiseFatal_env (f : Fatal) (s : State) : (raiseFatal f s).env = s.env := rfl

/-- A read away from `MAP_START` changes nothing. -/
theorem ReadCase.eq_of_ne_mapStart {a : Word} {s s' : State} {v : Byte} (h : ReadCase a s v s') (ha : a ≠ s.cfg.mapStart) :
    s' = s := by
  cases h with
  | main => rfl
  | mapped => rfl
  | disk he => exact absurd he ha

/-- A write away from `MAP_START` changes at most `mem` and `map`. -/
theorem WriteCase.sameElsewhere_of_ne_mapStart {b : Word} {v : Byte} {s s' : State} (h : WriteCase b v s s')
    (hb : b ≠ s.cfg.mapStart) : sameElsewhere s s' := by
  cases h with
  | main => exact ⟨rfl, rfl, rfl, rfl, rfl⟩
  | mapped => exact ⟨rfl, rfl, rfl, rfl, rfl⟩
  | disk he => exact absurd he hb

theorem not_selectsMapped_of_selectsMain {c : Config} {a : Word} (h : selectsMain c a) : ¬ selectsMapped c a :=
  fun h' => Nat.lt_asymm h.1 h'.1

/-- A write away from `MAP_START` writes the byte its address selects, in `mem` or in `map`, and no other byte. -/
theorem WriteCase.writtenAt_of_ne_mapStart {b : Word} {v : Byte} {s s' : State} (h : WriteCase b v s s')
    (hb : b ≠ s.cfg.mapStart) (hm : s.mem.wf = true) (hp : s.map.wf = true) : writtenAt s s' b v := by
  cases h with
  | main hs =>
    have hn : ¬ selectsMapped s.cfg b := not_selectsMapped_of_selectsMain hs
    exact ⟨fun x => by simp [Memory.read_write hm, and_iff_right hs], fun o => by simp [hn]⟩
  | mapped hs =>
    have hn : ¬ selectsMain s.cfg b := fun hs' => not_selectsMapped_of_selectsMain hs' hs
    exact ⟨fun x => by simp [hn], fun o => by simp [Memory.read_write hp, and_iff_right hs]⟩
  | disk he => exact absurd he hb

/-- A MOVE whose source is not `MAP_START` faults in the state it started in, or makes its one write there. -/
theorem MoveCase.of_source_ne_mapStart {a b c : Word} {s t : State} (h : MoveCase a b c s t) (ha : a ≠ s.cfg.mapStart) :
    (∃ f, t = raiseFatal f s) ∨ ∃ v s', WriteCase b v s s' ∧ t = s'.withIp c := by
  cases h with
  | moved hr hw =>
    obtain rfl := hr.eq_of_ne_mapStart ha
    exact .inr ⟨_, _, hw, rfl⟩
  | sourceFault => exact .inl ⟨_, rfl⟩
  | destinationFault hr =>
    obtain rfl := hr.eq_of_ne_mapStart ha
    exact .inl ⟨_, rfl⟩

/-- Settles O23: such a MOVE faults with nothing written, or makes one decoded write. -/
theorem frameOfMoveWithoutTrigger : Obligations.FrameOfMoveWithoutTrigger := by
  intro s t a b c hi ha hb h
  obtain ⟨hm, -, hp, -⟩ := (inv_iff s).1 hi
  rcases (execMove_cases h).of_source_ne_mapStart ha with ⟨f, rfl⟩ | ⟨v, s', hw, rfl⟩
  · simp
  · obtain ⟨hcfg, -, hdisk, hframes, henv⟩ := hw.sameElsewhere_of_ne_mapStart hb
    obtain ⟨hmem, hmap⟩ := hw.writtenAt_of_ne_mapStart hb hm hp
    exact ⟨hcfg, hdisk, hframes, henv, fun x hx => (hmem x).trans (if_neg hx), fun o ho => (hmap o).trans (if_neg ho)⟩

/-- Without the trigger an instruction neither changes the backing store nor takes an answer of the environment. -/
theorem exec_devices_without_trigger {i : Instr} {s t : State} (hi : ¬ touchesTrigger s.cfg i) (h : exec i s = .next t) :
    t.disk = s.disk ∧ t.env = s.env := by
  cases i with
  | dbgtrap start len =>
    obtain ⟨r, rfl⟩ := execDbgTrap_next h
    exact ⟨rfl, rfl⟩
  | move a b c =>
    obtain ⟨ha, hb⟩ := not_or.1 hi
    rcases (execMove_cases h).of_source_ne_mapStart ha with ⟨f, rfl⟩ | ⟨v, s', hw, rfl⟩
    · exact ⟨rfl, rfl⟩
    · obtain ⟨-, -, hdisk, -, henv⟩ := hw.sameElsewhere_of_ne_mapStart hb
      exact ⟨hdisk, henv⟩

/-- R59: without the trigger an instruction writes main memory below `MAP_START` only. -/
theorem exec_hidden_mem_without_trigger {i : Instr} {s t : State} {x : Nat} (hm : s.mem.wf = true) (hp : s.map.wf = true)
    (hi : ¬ touchesTrigger s.cfg i) (h : exec i s = .next t) (hx : s.cfg.mapStart.toNat ≤ x) :
    t.mem.read x = s.mem.read x := by
  cases i with
  | dbgtrap start len =>
    obtain ⟨r, rfl⟩ := execDbgTrap_next h
    rfl
  | move a b c =>
    obtain ⟨ha, hb⟩ := not_or.1 hi
    rcases (execMove_cases h).of_source_ne_mapStart ha with ⟨f, rfl⟩ | ⟨v, s', hw, rfl⟩
    · rfl
    · have hne : ¬ (selectsMain s.cfg b ∧ x = b.toNat) := fun ⟨hs, he⟩ => by
        have := hs.1
        omega
      exact ((hw.writtenAt_of_ne_mapStart hb hm hp).1 x).trans (if_neg hne)

@[simp] theorem Env.afterKeys_disk (e : Env) : e.afterKeys.disk = e.disk := by
  unfold Env.afterKeys
  split <;> rfl

@[simp] theorem Env.afterPresent_disk (e : Env) : e.afterPresent.disk = e.disk := rfl

@[simp] theorem Env.afterOpen_disk (e : Env) : e.afterOpen.disk = e.disk := by
  unfold Env.afterOpen
  split <;> rfl

/-- The refresh changes only `map` and takes only an answer of `poll_keys`. -/
theorem afterRefresh_frame (keys : Option (List Byte)) (s : State) :
    (afterRefresh keys s).cfg = s.cfg ∧ (afterRefresh keys s).mem = s.mem ∧ (afterRefresh keys s).disk = s.disk ∧
      (afterRefresh keys s).env = s.env.afterKeys := by
  simp [afterRefresh]

/-- The end of a cycle changes neither memory nor the backing store and takes no answer of the storage. -/
theorem endCycle_frame {s t : State} (h : endCycle s = .next t) :
    t.mem = s.mem ∧ t.map = s.map ∧ t.disk = s.disk ∧ t.env.disk = s.env.disk := by
  rcases endCycle_next h with ⟨-, rfl⟩ | ⟨-, _, -, -, rfl⟩
  · exact ⟨rfl, rfl, rfl, rfl⟩
  · simp

/-- Where a next instruction is foreseen, a step runs it after the refresh and then ends the cycle. -/
theorem step_runsNext {s t : State} {keys : Option (List Byte)} {i : Instr} (hn : runsNext s keys i)
    (h : step s = .next t) : ∃ s', exec i (afterRefresh keys s) = .next s' ∧ endCycle s' = .next t := by
  simp only [step, hn.1, beginCycle_runsNext hn] at h
  split at h
  · next s' hx => exact ⟨s', hx, h⟩
  · cases h
  · cases h

/-- Settles O40: refresh, instruction and end of cycle each keep the store and its queue of answers. -/
theorem onlyTriggerReachesDisk : Obligations.OnlyTriggerReachesDisk := by
  intro s t keys i hn hi h
  obtain ⟨s', hx, he⟩ := step_runsNext hn h
  obtain ⟨hcfg, -, hdisk, henv⟩ := afterRefresh_frame keys s
  obtain ⟨hdisk', henv'⟩ := exec_devices_without_trigger (by rwa [hcfg]) hx
  obtain ⟨-, -, hdiskEnd, henvEnd⟩ := endCycle_frame he
  refine ⟨hdiskEnd.trans (hdisk'.trans hdisk), ?_⟩
  rw [henvEnd, henv', henv, Env.afterKeys_disk]

theorem afterRefresh_map_wf {s : State} (h : s.map.wf = true) (keys : Option (List Byte)) :
    (afterRefresh keys s).map.wf = true := by
  cases keys with
  | none => exact h
  | some ks => exact Memory.wf_writeBlock h _ _

/-- Settles O45: only the instruction can write main memory, and a decoded address at or above `MAP_START` is mapped. -/
theorem hiddenMemoryIsOutOfReach : Obligations.HiddenMemoryIsOutOfReach := by
  intro s t keys i x hinv hn hi h hx
  obtain ⟨hm, -, hp, -⟩ := (inv_iff s).1 hinv
  obtain ⟨s', hrun, he⟩ := step_runsNext hn h
  obtain ⟨hcfg, hmem, -, -⟩ := afterRefresh_frame keys s
  calc t.mem.read x = s'.mem.read x := by rw [(endCycle_frame he).1]
    _ = (afterRefresh keys s).mem.read x :=
      exec_hidden_mem_without_trigger (by rwa [hmem]) (afterRefresh_map_wf hp keys) (by rwa [hcfg]) hrun (by rwa [hcfg])
    _ = s.mem.read x := by rw [hmem]

end Sys2Proof.Machine
end

section
/-! The encoding (R69 to R74): the decoder and the encoder are inverse, `a` alone selects the instruction, and the three words at
`ip` are the bit fields of the 24-byte value there. -/

namespace Sys2Proof.Machine

/-- The word whose eight bytes follow `pre`. -/
theorem wordAt_append_bytes8 {pre : List Byte} {k : Nat} (hk : pre.length = k) (w : Word) (post : List Byte) :
    wordAt (pre ++ (bytes8 w ++ post)) k = w := by
  rw [wordAt, List.drop_left' hk, List.take_left' (bytes8_length w), word64_bytes8]

/-- R69: the decoder reads back three words written out one after the other, and leaves the bytes after them. -/
theorem decode_append_bytes8 (a b c : Word) (rest : List Byte) :
    decode (bytes8 a ++ bytes8 b ++ bytes8 c ++ rest) = .instr (decodeFields a b c) rest := by
  have ha : wordAt (bytes8 a ++ bytes8 b ++ bytes8 c ++ rest) 0 = a := by
    simpa using wordAt_append_bytes8 (pre := []) rfl a (bytes8 b ++ bytes8 c ++ rest)
  have hb : wordAt (bytes8 a ++ bytes8 b ++ bytes8 c ++ rest) 8 = b := by
    simpa using wordAt_append_bytes8 (bytes8_length a) b (bytes8 c ++ rest)
  have hc : wordAt (bytes8 a ++ bytes8 b ++ bytes8 c ++ rest) 16 = c := by
    simpa using wordAt_append_bytes8 (pre := bytes8 a ++ bytes8 b) (by simp) c rest
  have hlen : (bytes8 a ++ bytes8 b ++ bytes8 c).length = instrBytes := by simp [instrBytes]
  rw [decode, ha, hb, hc, List.drop_left' hlen, if_neg (by rw [List.length_append, hlen]; omega)]

/-- R72: the fields of a well-formed instruction decode to it; only a MOVE with the sentinel as its source would not. -/
theorem decodeFields_fields {i : Instr} (h : i.wellFormed = true) :
    decodeFields i.fields.1 i.fields.2.1 i.fields.2.2 = i := by
  cases i with
  | dbgtrap start len => exact if_pos rfl
  | move src dst next => exact if_neg (bne_iff_ne.1 h)

/-- R70: no field is lost, the sentinel of a DBGTRAP included. -/
@[simp] theorem fields_decodeFields (a b c : Word) : (decodeFields a b c).fields = (a, b, c) := by
  unfold decodeFields
  split
  · next ha => rw [Instr.fields, ha]
  · rfl

theorem wellFormed_decodeFields (a b c : Word) : (decodeFields a b c).wellFormed = true := by
  unfold decodeFields
  split
  · rfl
  · next ha => exact bne_iff_ne.2 ha

/-- The words of a byte string are its bytes, eight at a time. -/
theorem bytes8_wordAt {bytes : List Byte} {k : Nat} (h : k + 8 ≤ bytes.length) :
    bytes8 (wordAt bytes k) = (bytes.drop k).take 8 :=
  bytes8_word64 (by rw [List.length_take, List.length_drop]; omega)

/-- R69, R70: the three words of a byte string and what follows them are all of its bytes. -/
theorem bytes8_wordAt_append_drop {bytes : List Byte} (h : instrBytes ≤ bytes.length) :
    bytes8 (wordAt bytes 0) ++ bytes8 (wordAt bytes 8) ++ bytes8 (wordAt bytes 16) ++ bytes.drop instrBytes = bytes := by
  simp only [instrBytes] at h ⊢
  rw [bytes8_wordAt (by omega), bytes8_wordAt (by omega), bytes8_wordAt (by omega), List.drop_zero, ← List.take_add,
    ← List.take_add, List.take_append_drop]

/-- What a decoded byte string was: at least 24 bytes, of which the three words were decoded. -/
theorem decode_eq_instr {bytes rest : List Byte} {i : Instr} (h : decode bytes = .instr i rest) :
    instrBytes ≤ bytes.length ∧ i = decodeFields (wordAt bytes 0) (wordAt bytes 8) (wordAt bytes 16) ∧
      rest = bytes.drop instrBytes := by
  unfold decode at h
  split at h
  · cases h
  · next hlen =>
    cases h
    exact ⟨Nat.not_lt.1 hlen, rfl, rfl⟩

theorem dbgtrapRow_matchesField (a : Word) :
    OpcodeRow.matchesField ⟨"DBGTRAP", 0xFFFFFFFFFFFFFFFF, 0xFFFFFFFFFFFFFFFF⟩ a = true ↔ a = sentinel := by
  have hmask : a &&& 0xFFFFFFFFFFFFFFFF = a := BitVec.and_allOnes
  rw [OpcodeRow.matchesField, hmask]
  exact beq_iff_eq

theorem moveRow_matchesField (a : Word) : OpcodeRow.matchesField ⟨"MOVE", 0, 0⟩ a = true :=
  beq_iff_eq.2 BitVec.and_zero

theorem find?_opcodeMap_of_eq {a : Word} (ha : a = sentinel) :
    (opcodeMap.find? fun r => r.matchesField a) = some ⟨"DBGTRAP", 0xFFFFFFFFFFFFFFFF, 0xFFFFFFFFFFFFFFFF⟩ :=
  List.find?_cons_of_pos (p := (OpcodeRow.matchesField · a)) ((dbgtrapRow_matchesField a).2 ha)

theorem find?_opcodeMap_of_ne {a : Word} (ha : a ≠ sentinel) :
    (opcodeMap.find? fun r => r.matchesField a) = some ⟨"MOVE", 0, 0⟩ :=
  (List.find?_cons_of_neg (p := (OpcodeRow.matchesField · a)) (mt (dbgtrapRow_matchesField a).1 ha)).trans
    (List.find?_cons_of_pos (p := (OpcodeRow.matchesField · a)) (moveRow_matchesField a))

/-- R11: the value of two byte strings, one after the other. -/
theorem leNat_append (bs cs : List Byte) : leNat (bs ++ cs) = leNat bs + 256 ^ bs.length * leNat cs := by
  induction bs with
  | nil => simp [leNat]
  | cons b bs ih =>
    simp only [List.cons_append, leNat, ih, List.length_cons]
    ring

/-- R69: the value of the 24 bytes at `ip` is made of the three words there. -/
theorem Memory.leNat_readBlock_instr (m : Memory) (ip : Nat) :
    leNat (m.readBlock ip 24) =
      (m.word ip).toNat + 2 ^ 64 * (m.word (ip + 8)).toNat + 2 ^ 128 * (m.word (ip + 16)).toNat := by
  have hword (i : Nat) : leNat (m.readBlock i 8) = (m.word i).toNat := (word64_toNat (m.readBlock_length i 8)).symm
  rw [m.readBlock_append ip 16 8, m.readBlock_append ip 8 8, leNat_append, leNat_append, hword, hword, hword]
  simp

/-- Settles O1: the decoder reads back the three words of the encoding, and they are the instruction's fields. -/
theorem decodeOfEncode : Obligations.DecodeOfEncode := by
  intro i rest h
  rw [encode, decode_append_bytes8, decodeFields_fields h]

/-- Settles O2: the fields of the decoded instruction are the words read, and these are the bytes read. -/
theorem encodeOfDecode : Obligations.EncodeOfDecode := by
  intro bytes rest i h
  obtain ⟨hlen, rfl, rfl⟩ := decode_eq_instr h
  refine ⟨wellFormed_decodeFields _ _ _, ?_⟩
  rw [encode, fields_decodeFields]
  exact bytes8_wordAt_append_drop hlen

/-- Settles O3: three words with no byte after them. -/
theorem decoderLooksOnlyAtSource : Obligations.DecoderLooksOnlyAtSource := by
  intro a b c
  rw [← List.append_nil (bytes8 a ++ bytes8 b ++ bytes8 c), decode_append_bytes8]
  rfl

/-- Settles O4: the DBGTRAP row matches the sentinel alone, and the MOVE row below it matches every `a`. -/
theorem decoderFollowsOpcodeMap : Obligations.DecoderFollowsOpcodeMap := by
  intro a b c
  by_cases ha : a = sentinel
  · rw [find?_opcodeMap_of_eq ha, decodeFields, if_pos ha]
    rfl
  · rw [find?_opcodeMap_of_ne ha, decodeFields, if_neg ha]
    rfl

/-- Settles O5: each word is below `2 ^ 64`, so the three of them are the digits of the value in that base. -/
theorem fieldsAreBitsOfInstruction : Obligations.FieldsAreBitsOfInstruction := by
  intro m ip
  have ha : (m.word ip).toNat < 2 ^ 64 := (m.word ip).isLt
  have hb : (m.word (ip + 8)).toNat < 2 ^ 64 := (m.word (ip + 8)).isLt
  rw [m.leNat_readBlock_instr ip]
  omega

end Sys2Proof.Machine
end

section
/-! The cycle (R82, R86, R90): what a halted machine, a fetch outside memory, a decoded instruction and the end of a cycle each
make of a step, as equations. -/

namespace Sys2Proof.Machine

@[simp] theorem raiseFatal_run (f : Fatal) (s : State) : (raiseFatal f s).run = .halted (.fault f) := rfl

/-- A fetch whose 24 bytes leave main memory ends the cycle in `FETCH_OOB`, after the refresh (R87, R144). -/
theorem step_fetch_outside {s : State} {keys : Option (List Byte)} (hr : s.run = .running)
    (hk : s.env.keysAnswer = .returns keys) (hb : s.cfg.memSize < s.ip.toNat + instrBytes) :
    step s = .next (raiseFatal (.fetchOob s.ip) (afterRefresh keys s)) := by
  have hfetch : fetch (afterRefresh keys s) = .raised (.fetchOob s.ip) (afterRefresh keys s) := if_pos hb
  have hbegin : beginCycle s = .raised (.fetchOob s.ip) (afterRefresh keys s) := by
    rw [beginCycle, pollAndRefresh, hk]
    exact hfetch
  simp only [step, hr, hbegin]

theorem endCycle_halted {s : State} {r : HaltReason} (h : s.run = .halted r) : endCycle s = .next s := by
  simp only [endCycle, h]

theorem endCycle_running {s : State} {isOpen : Bool} (hr : s.run = .running) (hp : s.env.presentAnswer = .returns ())
    (ho : s.env.afterPresent.openAnswer = .returns isOpen) :
    endCycle s =
      .next (((s.withFrame (frameOf s)).withEnv s.env.afterPresent.afterOpen).withRun (livenessRun isOpen)) := by
  simp only [endCycle, hr, hp, ho]

theorem eq_of_endCycle_halted {s t : State} {r : HaltReason} (h : endCycle s = .next t) (hr : s.run = .halted r) : t = s :=
  Host.Outcome.next.inj (h.symm.trans (endCycle_halted hr))

theorem endCycle_ip {s t : State} (h : endCycle s = .next t) : t.ip = s.ip := by
  rcases endCycle_next h with ⟨-, rfl⟩ | ⟨-, _, -, -, rfl⟩ <;> rfl

/-- A cycle whose instruction left the machine Running ends Running or with the window closed (R90). -/
theorem endCycle_run_of_running {s t : State} (h : endCycle s = .next t) (hr : s.run = .running) :
    t.run = .running ∨ t.run = .halted .windowClosed := by
  rcases endCycle_next h with ⟨hn, -⟩ | ⟨-, isOpen, -, -, rfl⟩
  · exact absurd hr hn
  · cases isOpen
    · exact .inr rfl
    · exact .inl rfl

/-- Settles O7: `step` looks at the run state before anything else. -/
theorem haltedMachineHasNoStep : Obligations.HaltedMachineHasNoStep := by
  intro s r h
  simp only [step, h]

/-- Settles O8: steps 1 to 3 reach the decoded instruction, whose three outcomes `step` passes on. -/
theorem stepRunsDecodedInstruction : Obligations.StepRunsDecodedInstruction := by
  intro s keys i hn
  cases hx : exec i (afterRefresh keys s) <;> simp only [step, hn.1, beginCycle_runsNext hn, hx]

/-- Settles O10: the two equations of the end of a cycle. -/
theorem endOfCyclePresentsThenPolls : Obligations.EndOfCyclePresentsThenPolls := by
  intro s
  exact ⟨fun _ => endCycle_halted, fun _ hr hp ho => ⟨_, endCycle_running hr hp ho, rfl, rfl, rfl, rfl, rfl, rfl, rfl⟩⟩

end Sys2Proof.Machine
end

section
/-! MOVE (R85, R91 to R95): what it makes of a read and a write that complete, and of one that faults; then its forms between
stored bytes, and its faults. -/

namespace Sys2Proof.Machine

theorem exec_move_done {a b c : Word} {v : Byte} {s s1 s2 : State} (hr : memRead .source a s = .done v s1)
    (hw : memWrite .destination b v s1 = .done () s2) : exec (.move a b c) s = .next (s2.withIp c) := by
  simp only [exec, execMove, hr, hw, Res.bind, Res.outcome]

theorem exec_move_source_raised {a b c : Word} {f : Fatal} {s s1 : State} (hr : memRead .source a s = .raised f s1) :
    exec (.move a b c) s = .next (raiseFatal f s1) := by
  simp only [exec, execMove, hr, Res.bind, Res.outcome]

theorem exec_move_destination_raised {a b c : Word} {v : Byte} {f : Fatal} {s s1 s2 : State}
    (hr : memRead .source a s = .done v s1) (hw : memWrite .destination b v s1 = .raised f s2) :
    exec (.move a b c) s = .next (raiseFatal f s2) := by
  simp only [exec, execMove, hr, hw, Res.bind, Res.outcome]

theorem ne_mapStart_of_selectsByte {c : Config} {a : Word} (h : selectsByte c a) : a ≠ c.mapStart := by
  rintro rfl
  rcases h with ⟨h, -⟩ | ⟨h, -⟩ <;> exact Nat.lt_irrefl _ h

/-- A write at a selected byte completes: that byte of `mem` or `map` is written, and nothing else changes (R50, R56, R58). -/
theorem memWrite_selectsByte {role : Role} {b : Word} {v : Byte} {s : State} (hm : s.mem.wf = true) (hp : s.map.wf = true)
    (hb : selectsByte s.cfg b) :
    ∃ s', memWrite role b v s = .done () s' ∧ sameElsewhere s s' ∧ writtenAt s s' b v := by
  obtain ⟨s', hw⟩ : ∃ s', memWrite role b v s = .done () s' := by
    rcases hb with hb | hb
    · exact ⟨_, memWrite_selectsMain hb⟩
    · exact ⟨_, memWrite_selectsMapped hb⟩
  have hne : b ≠ s.cfg.mapStart := ne_mapStart_of_selectsByte hb
  exact ⟨s', hw, (memWrite_cases hw).sameElsewhere_of_ne_mapStart hne, (memWrite_cases hw).writtenAt_of_ne_mapStart hne hm hp⟩

/-- Settles O15: the read answers the selected byte and changes nothing, and the write stores it in its one place. -/
theorem moveCopiesOneByte : Obligations.MoveCopiesOneByte := by
  intro s a b c hi ha hb
  obtain ⟨hm, -, hp, -⟩ := (inv_iff s).1 hi
  obtain ⟨s', hw, hsame, hwritten⟩ := memWrite_selectsByte hm hp hb
  exact ⟨s'.withIp c, exec_move_done (memRead_selectsByte ha) hw, rfl, hsame, hwritten⟩

/-- Settles O60: the scratch byte is written back where it was read, which in canonical memory changes nothing. -/
theorem jumpChangesOnlyInstructionPointer : Obligations.JumpChangesOnlyInstructionPointer := by
  intro s scratch target hi hs
  have hm : s.mem.wf = true := ((inv_iff s).1 hi).1
  have hbyte : operandByte s scratch = s.mem.read scratch.toNat := if_pos hs.1
  have hsame : s.withMem (s.mem.write scratch.toNat (operandByte s scratch)) = s := by
    rw [hbyte, Memory.write_read_self hm]
    rfl
  rw [jmpInstr, exec_move_done (memRead_selectsByte (.inl hs)) (memWrite_selectsMain hs), hsame]

/-- Settles O19: the read faults before anything is written. -/
theorem sourceOutsideMemoryFaults : Obligations.SourceOutsideMemoryFaults := by
  intro s a b c
  exact ⟨fun hlt hm => exec_move_source_raised (memRead_outside.1 hlt hm),
    fun hge => exec_move_source_raised (memRead_outside.2 hge)⟩

/-- Settles O20: the read completes and keeps `cfg` and `ip`, so the write faults in its state with the records of `s`. -/
theorem destinationOutsideMemoryKeepsSourceEffects : Obligations.DestinationOutsideMemoryKeepsSourceEffects := by
  intro s s1 a b c v hsrc
  obtain ⟨w, hr⟩ : ∃ w, memRead .source a s = .done w s1 := by
    rcases hsrc with ⟨ha, rfl⟩ | ⟨rfl, hd⟩
    · exact ⟨_, memRead_selectsByte ha⟩
    · exact ⟨v, (memRead_mapStart .source s).trans hd⟩
  obtain ⟨hcfg, hip, -⟩ := (memRead_cases hr).frame
  rw [← hcfg, ← hip]
  exact ⟨fun hlt hm => exec_move_destination_raised hr (memWrite_outside.1 hlt hm),
    fun hge => exec_move_destination_raised hr (memWrite_outside.2 hge)⟩

end Sys2Proof.Machine
end

section
/-! How a cycle that runs an instruction ends (R89, R161): the first of its conditions that holds decides the run state. -/

namespace Sys2Proof.Machine

/-- R58, R94: the addresses a MOVE may access are those of the stored bytes and `MAP_START`. -/
theorem addressOk_iff (c : Config) (a : Word) : addressOk c a = true ↔ selectsByte c a ∨ a = c.mapStart := by
  rcases address_cases c a with ⟨hs, h⟩ | ⟨he, h⟩ | ⟨h, ho⟩
  · exact iff_of_true h (.inl hs)
  · exact iff_of_true h (.inr he)
  · have hp : 0 < c.regionSize := by simp [Config.regionSize, kbLen]
    refine iff_of_false (by simp [h]) ?_
    rintro (⟨h1, h2⟩ | rfl) <;> omega

theorem outside_of_addressOk_eq_false {c : Config} {a : Word} (h : addressOk c a = false) :
    (a.toNat < c.mapStart.toNat ∧ c.memSize ≤ a.toNat) ∨ c.mapStart.toNat + c.regionSize ≤ a.toNat := by
  rcases address_cases c a with ⟨-, hok⟩ | ⟨-, hok⟩ | ⟨-, ho⟩
  · simp [h] at hok
  · simp [h] at hok
  · exact ho

/-- A read that completes was of an address a MOVE may access. -/
theorem ReadCase.addressOk_eq_true {a : Word} {v : Byte} {s s' : State} (h : ReadCase a s v s') :
    addressOk s.cfg a = true := by
  refine (addressOk_iff _ _).2 ?_
  cases h with
  | main hs => exact .inl (.inl hs)
  | mapped hs => exact .inl (.inr hs)
  | disk he => exact .inr he

/-- A write that completes was at an address a MOVE may access. -/
theorem WriteCase.addressOk_eq_true {b : Word} {v : Byte} {s s' : State} (h : WriteCase b v s s') :
    addressOk s.cfg b = true := by
  refine (addressOk_iff _ _).2 ?_
  cases h with
  | main hs => exact .inl (.inl hs)
  | mapped hs => exact .inl (.inr hs)
  | disk he => exact .inr he

/-- What a decoded read that faults records (R154, R156). -/
theorem memRead_raised_fatal {role : Role} {a : Word} {s s' : State} {f : Fatal} (h : memRead role a s = .raised f s') :
    f = .memOob s.ip role a ∨ f = .mapOob s.ip role a := by
  rcases outside_of_addressOk_eq_false (memRead_raised h).2 with ⟨hlt, hm⟩ | hge
  · exact .inl (Res.raised.inj (h.symm.trans (memRead_outside.1 hlt hm))).1
  · exact .inr (Res.raised.inj (h.symm.trans (memRead_outside.2 hge))).1

/-- What a decoded write that faults records (R154, R156). -/
theorem memWrite_raised_fatal {role : Role} {b : Word} {v : Byte} {s s' : State} {f : Fatal}
    (h : memWrite role b v s = .raised f s') : f = .memOob s.ip role b ∨ f = .mapOob s.ip role b := by
  rcases outside_of_addressOk_eq_false (memWrite_raised h).2 with ⟨hlt, hm⟩ | hge
  · exact .inl (Res.raised.inj (h.symm.trans (memWrite_outside.1 hlt hm))).1
  · exact .inr (Res.raised.inj (h.symm.trans (memWrite_outside.2 hge))).1

theorem MoveCase.run_of_source_outside {a b c : Word} {s t : State} (h : MoveCase a b c s t)
    (ha : addressOk s.cfg a = false) :
    t.run = .halted (.fault (.memOob s.ip .source a)) ∨ t.run = .halted (.fault (.mapOob s.ip .source a)) := by
  cases h with
  | moved hr => exact absurd hr.addressOk_eq_true (by simp [ha])
  | sourceFault _ hf => exact (memRead_raised_fatal hf).imp (by rintro rfl; rfl) (by rintro rfl; rfl)
  | destinationFault hr => exact absurd hr.addressOk_eq_true (by simp [ha])

theorem MoveCase.run_of_destination_outside {a b c : Word} {s t : State} (h : MoveCase a b c s t)
    (ha : addressOk s.cfg a = true) (hb : addressOk s.cfg b = false) :
    t.run = .halted (.fault (.memOob s.ip .destination b)) ∨ t.run = .halted (.fault (.mapOob s.ip .destination b)) := by
  cases h with
  | moved hr hw =>
    have hok := hw.addressOk_eq_true
    rw [hr.frame.1] at hok
    exact absurd hok (by simp [hb])
  | sourceFault hn => exact absurd ha (by simp [hn])
  | destinationFault hr _ hf =>
    rw [← hr.frame.2.1]
    exact (memWrite_raised_fatal hf).imp (by rintro rfl; rfl) (by rintro rfl; rfl)

theorem MoveCase.run_of_addressOk {a b c : Word} {s t : State} (h : MoveCase a b c s t)
    (ha : addressOk s.cfg a = true) (hb : addressOk s.cfg b = true) : t.run = s.run := by
  cases h with
  | moved hr hw => exact hw.frame.2.2.1.trans hr.frame.2.2.1
  | sourceFault hn => exact absurd ha (by simp [hn])
  | destinationFault hr hn =>
    rw [hr.frame.1] at hn
    exact absurd hb (by simp [hn])

/-- A MOVE faults, or completes with `ip` its `next` (R88, R89). -/
theorem MoveCase.fault_or_ip {a b c : Word} {s t : State} (h : MoveCase a b c s t) :
    (∃ f, t.run = .halted (.fault f)) ∨ t.ip = c := by
  cases h with
  | moved => exact .inr rfl
  | sourceFault => exact .inl ⟨_, rfl⟩
  | destinationFault => exact .inl ⟨_, rfl⟩

/-- Where a cycle runs an instruction that halts the machine, the step ends with that run state (R138). -/
theorem step_run_of_exec_halted {s t s' : State} {keys : Option (List Byte)} {i : Instr} {r : HaltReason}
    (hn : runsNext s keys i) (h : step s = .next t) (hx : exec i (afterRefresh keys s) = .next s')
    (hr : s'.run = .halted r) : t.run = .halted r := by
  obtain ⟨s'', hx', he⟩ := step_runsNext hn h
  cases hx.symm.trans hx'
  rw [eq_of_endCycle_halted he hr, hr]

/-- Settles O12: a MOVE that does not fault has set `ip`, which the end of the cycle keeps and the next fetch is tested at. -/
theorem completedMoveJumpsToFetchedNext : Obligations.CompletedMoveJumpsToFetchedNext := by
  intro s t keys a b c hn h hnf
  obtain ⟨s', hx, he⟩ := step_runsNext hn h
  have hip : t.ip = c := by
    rcases (execMove_cases hx).fault_or_ip with ⟨f, hf⟩ | hip
    · rw [State.faulted, eq_of_endCycle_halted he hf, hf] at hnf
      cases hnf
    · exact (endCycle_ip he).trans hip
  refine ⟨hip, fun keys' hr hk hc => ⟨_, step_fetch_outside hr hk (by rwa [hip]), ?_⟩⟩
  rw [raiseFatal_run, hip]

/-- Settles O22: the fetch is tested on the state before the cycle, the other conditions by the instruction it runs, and the
sink only where the instruction left the machine Running. -/
theorem firstConditionEndsCycle : Obligations.FirstConditionEndsCycle := by
  intro s t keys hr hk h
  refine ⟨fun hb => ?fetch, fun b c hn ho => ?dump, fun b c hn hi => ?trap, fun a b c hn ha => ?source,
    fun a b c hn ha hb => ?destination, fun a b c hn ha hb => ?liveness⟩
  case fetch =>
    cases h.symm.trans (step_fetch_outside hr hk hb)
    rfl
  case dump =>
    have hnot : ¬ inMain s.cfg b.toNat c.toNat = true := by
      rw [inMain_iff]
      omega
    exact step_run_of_exec_halted hn h (if_neg hnot) rfl
  case trap => exact ⟨_, step_run_of_exec_halted hn h (if_pos ((inMain_iff _ _ _).2 hi)) rfl⟩
  case source =>
    obtain ⟨s', hx, -⟩ := step_runsNext hn h
    exact ((execMove_cases hx).run_of_source_outside ha).imp (step_run_of_exec_halted hn h hx)
      (step_run_of_exec_halted hn h hx)
  case destination =>
    obtain ⟨s', hx, -⟩ := step_runsNext hn h
    exact ((execMove_cases hx).run_of_destination_outside ha hb).imp (step_run_of_exec_halted hn h hx)
      (step_run_of_exec_halted hn h hx)
  case liveness =>
    obtain ⟨s', hx, he⟩ := step_runsNext hn h
    exact endCycle_run_of_running he (((execMove_cases hx).run_of_addressOk ha hb).trans hr)

end Sys2Proof.Machine
end

section
/-! DBGTRAP (R101 to R108): the two ways it halts the machine, as equations, and the cycle that runs it. -/

namespace Sys2Proof.Machine

/-- R105: a range inside main memory is dumped, and the machine halts with the dump. -/
theorem exec_dbgtrap_inside {s : State} {b c : Word} (h : b.toNat + c.toNat ≤ s.cfg.memSize) :
    exec (.dbgtrap b c) s = .next (halt (.debugTrap (s.mem.readBlock b.toNat c.toNat)) s) :=
  if_pos ((inMain_iff _ _ _).2 h)

/-- R106: a range that leaves main memory is `DUMP_OOB`, on unbounded integers. -/
theorem exec_dbgtrap_outside {s : State} {b c : Word} (h : s.cfg.memSize < b.toNat + c.toNat) :
    exec (.dbgtrap b c) s = .next (raiseFatal (.dumpOob s.ip b c) s) :=
  if_neg (mt (inMain_iff _ _ _).1 (Nat.not_le.2 h))

/-- DBGTRAP has a next state from every state, halted and never for a closed window. -/
theorem exec_dbgtrap_halts (s : State) (b c : Word) :
    ∃ r, exec (.dbgtrap b c) s = .next (halt r s) ∧ r ≠ .windowClosed := by
  rcases Nat.lt_or_ge s.cfg.memSize (b.toNat + c.toNat) with hout | hin
  · exact ⟨.fault (.dumpOob s.ip b c), exec_dbgtrap_outside hout, nofun⟩
  · exact ⟨.debugTrap _, exec_dbgtrap_inside hin, nofun⟩

/-- A cycle whose instruction halts the machine ends in the state the instruction left (R138). -/
theorem step_of_exec_halted {s t : State} {keys : Option (List Byte)} {i : Instr} {r : HaltReason} (hn : runsNext s keys i)
    (hx : exec i (afterRefresh keys s) = .next t) (hr : t.run = .halted r) : step s = .next t := by
  rw [stepRunsDecodedInstruction s keys i hn, hx]
  exact endCycle_halted hr

/-- Settles O27: the dump is the block `mem[b .. b+c)`, read without the address decoder. -/
theorem debugTrapDumpsMainMemory : Obligations.DebugTrapDumpsMainMemory := by
  intro s b c h
  exact ⟨_, exec_dbgtrap_inside h, s.mem.readBlock_length _ _, fun _ hk => s.mem.readBlock_getElem? hk⟩

/-- Settles O29: the next state is the old one with only `run` set. -/
theorem frameOfDebugTrap : Obligations.FrameOfDebugTrap := by
  intro s t b c h
  obtain ⟨r, rfl⟩ := execDbgTrap_next h
  exact ⟨rfl, rfl, rfl, rfl, rfl, rfl, rfl, r, rfl⟩

/-- Settles O30: after the refresh the instruction halts the machine, the end of the cycle passes that state on, and from it
there is no step. -/
theorem debugTrapCycleOnlyHalts : Obligations.DebugTrapCycleOnlyHalts := by
  intro s keys b c hn
  obtain ⟨r, hx, hw⟩ := exec_dbgtrap_halts (afterRefresh keys s) b c
  exact ⟨r, step_of_exec_halted hn hx rfl, hw, haltedMachineHasNoStep _ r rfl⟩

end Sys2Proof.Machine
end

section
/-! The invariant of the machine's data (R24, R25, R33, R126) is kept: update by update, then by a transaction, an access, an
instruction and a whole step. -/

namespace Sys2Proof.Machine

@[simp] theorem inv_withIp (s : State) (v : Word) : (s.withIp v).inv = s.inv := rfl

@[simp] theorem inv_withRun (s : State) (r : RunState) : (s.withRun r).inv = s.inv := rfl

@[simp] theorem inv_withFrame (s : State) (f : Frame) : (s.withFrame f).inv = s.inv := rfl

@[simp] theorem inv_withEnv (s : State) (e : Env) : (s.withEnv e).inv = s.inv := rfl

@[simp] theorem inv_halt (r : HaltReason) (s : State) : (halt r s).inv = s.inv := rfl

@[simp] theorem inv_raiseFatal (f : Fatal) (s : State) : (raiseFatal f s).inv = s.inv := rfl

theorem inv_withMem {s : State} {m : Memory} (h : s.inv = true) (hw : m.wf = true) (hn : m.within s.cfg.memSize = true) :
    (s.withMem m).inv = true := by
  obtain ⟨-, -, hrest⟩ := (inv_iff s).1 h
  exact (inv_iff _).2 ⟨hw, hn, hrest⟩

theorem inv_withMap {s : State} {m : Memory} (h : s.inv = true) (hw : m.wf = true)
    (hn : m.within s.cfg.regionSize = true) : (s.withMap m).inv = true := by
  obtain ⟨hmem, hin, -, -, hdisk⟩ := (inv_iff s).1 h
  exact (inv_iff _).2 ⟨hmem, hin, hw, hn, hdisk⟩

theorem inv_withDisk {s : State} {d : Disk} (h : s.inv = true) (hd : d.wf s.cfg.sectorSize = true) :
    (s.withDisk d).inv = true := by
  obtain ⟨hmem, hin, hmap, hreg, -⟩ := (inv_iff s).1 h
  exact (inv_iff _).2 ⟨hmem, hin, hmap, hreg, hd⟩

/-- A byte written inside main memory keeps the invariant. -/
theorem inv_withMem_write {s : State} {i : Nat} (h : s.inv = true) (hi : i < s.cfg.memSize) (v : Byte) :
    (s.withMem (s.mem.write i v)).inv = true := by
  obtain ⟨hmem, hin, -⟩ := (inv_iff s).1 h
  exact inv_withMem h (Memory.wf_write hmem i v) (Memory.within_write hin hi v)

/-- A byte written inside the mapped region keeps the invariant. -/
theorem inv_withMap_write {s : State} {o : Nat} (h : s.inv = true) (ho : o < s.cfg.regionSize) (v : Byte) :
    (s.withMap (s.map.write o v)).inv = true := by
  obtain ⟨-, -, hmap, hreg, -⟩ := (inv_iff s).1 h
  exact inv_withMap h (Memory.wf_write hmap o v) (Memory.within_write hreg ho v)

/-- A sector written at the request's index, which is a word, keeps the invariant, whatever bytes it is given (R126). -/
theorem inv_withDisk_write {s : State} (h : s.inv = true) (sector : Word) (data : List Byte) :
    (s.withDisk (s.disk.write s.cfg.sectorSize sector.toNat data)).inv = true := by
  obtain ⟨-, -, -, -, hdisk⟩ := (inv_iff s).1 h
  exact inv_withDisk h (Disk.wf_write hdisk sector.isLt data)

/-- A transaction keeps the invariant: a transfer to memory passed the range test, and a stored sector is a whole one. -/
theorem DiskCase.inv {s s' : State} {v : Byte} (h : DiskCase s v s') (hi : s.inv = true) : s'.inv = true := by
  have hi' : (s.withEnv s.env.afterDisk).inv = true := by simpa using hi
  cases h with
  | rejected => exact hi'
  | readIn _ _ hm =>
    obtain ⟨hmem, hin, -⟩ := (inv_iff s).1 hi
    rw [reqInMain_iff] at hm
    exact inv_withMem hi' (Memory.wf_writeBlock hmem _ _) (Memory.within_writeBlock hin _ _ (by simpa using hm))
  | writtenOut => exact inv_withDisk_write hi' _ _
  | torn => exact inv_withDisk_write hi' _ _

theorem ReadCase.inv {a : Word} {s s' : State} {v : Byte} (h : ReadCase a s v s') (hi : s.inv = true) : s'.inv = true := by
  cases h with
  | main => exact hi
  | mapped => exact hi
  | disk _ hd => exact (diskTransaction_cases hd).inv hi

theorem regionSize_pos (c : Config) : 0 < c.regionSize := by
  simp [Config.regionSize, kbLen]

theorem inv_storeOff0 {s : State} (hi : s.inv = true) (v : Byte) : (storeOff0 v s).inv = true := by
  unfold storeOff0
  split
  · exact inv_withMap_write hi (regionSize_pos s.cfg) v
  · exact hi

theorem WriteCase.inv {b : Word} {v : Byte} {s s' : State} (h : WriteCase b v s s') (hi : s.inv = true) :
    s'.inv = true := by
  cases h with
  | main hs => exact inv_withMem_write hi hs.2 v
  | mapped hs =>
    obtain ⟨hlo, hhi⟩ := hs
    have ho : mappedOffset s.cfg b < s.cfg.regionSize := by
      unfold mappedOffset
      omega
    exact inv_withMap_write hi ho v
  | disk _ hd => exact (diskTransaction_cases hd).inv (inv_storeOff0 hi v)

theorem MoveCase.inv {a b c : Word} {s t : State} (h : MoveCase a b c s t) (hi : s.inv = true) : t.inv = true := by
  cases h with
  | moved hr hw => simpa using hw.inv (hr.inv hi)
  | sourceFault => simpa using hi
  | destinationFault hr => simpa using hr.inv hi

theorem exec_inv {i : Instr} {s t : State} (h : exec i s = .next t) (hi : s.inv = true) : t.inv = true := by
  cases i with
  | dbgtrap start len =>
    obtain ⟨r, rfl⟩ := execDbgTrap_next h
    simpa using hi
  | move a b c => exact (execMove_cases h).inv hi

/-- The sixteen slots a refresh writes end where the mapped region ends (R9). -/
theorem refresh_inv {s : State} (hi : s.inv = true) (keys : Option (List Byte)) : (refresh keys s).inv = true := by
  obtain ⟨-, -, hmap, hreg, -⟩ := (inv_iff s).1 hi
  cases keys with
  | none => exact hi
  | some ks =>
    have hend : s.cfg.kbBase + (slotBytes s.cfg.kbPad kbLen ks).length ≤ s.cfg.regionSize := by
      simp [Config.regionSize]
    exact inv_withMap hi (Memory.wf_writeBlock hmap _ _) (Memory.within_writeBlock hreg _ _ hend)

theorem endCycle_inv {s t : State} (h : endCycle s = .next t) (hi : s.inv = true) : t.inv = true := by
  rcases endCycle_next h with ⟨-, rfl⟩ | ⟨-, _, -, -, rfl⟩
  · exact hi
  · simpa using hi

/-- Settles O53: the refresh, the instruction and the end of the cycle each keep the invariant, and so does a fatal fetch. -/
theorem stepKeepsInvariant : Obligations.StepKeepsInvariant := by
  intro s t hi h
  have hrefresh : ∀ keys, (refresh keys (s.withEnv s.env.afterKeys)).inv = true := refresh_inv (by simpa using hi)
  cases step_cases h with
  | @fetchFault keys => simpa using hrefresh keys
  | @ran keys _ _ _ _ _ _ h1 _ hx he =>
    subst h1
    exact endCycle_inv he (exec_inv hx (hrefresh keys))

end Sys2Proof.Machine
end

section
/-! The disk sequencer (R115 to R127): each path of a transaction as an equation, what no transaction changes, and what its two
transfers do. -/

namespace Sys2Proof.Machine

theorem reqInMain_eq_false_iff (s : State) :
    reqInMain s = false ↔ s.cfg.memSize < (reqAddr s).toNat + s.cfg.sectorSize := by
  rw [← Bool.not_eq_true, reqInMain_iff, Nat.not_le]

/-- R120: the storage gives the sector and the range lies inside main memory. -/
theorem diskTransaction_read_inside {s : State} (hd : reqDirection s = 0) (ha : s.env.diskAnswer = .returns .ok)
    (hm : (reqAddr s).toNat + s.cfg.sectorSize ≤ s.cfg.memSize) :
    diskTransaction s = .done statusOk ((s.withEnv s.env.afterDisk).withMem
      (s.mem.writeBlock (reqAddr s).toNat (s.disk.read s.cfg.sectorSize (reqSector s).toNat))) := by
  simp [diskTransaction, hd, ha, diskReadPath, (reqInMain_iff s).2 hm]

/-- R119: the storage gives the sector and the range leaves main memory. -/
theorem diskTransaction_read_outside {s : State} (hd : reqDirection s = 0) (ha : s.env.diskAnswer = .returns .ok)
    (hm : s.cfg.memSize < (reqAddr s).toNat + s.cfg.sectorSize) :
    diskTransaction s = .done statusOverflow (s.withEnv s.env.afterDisk) := by
  simp [diskTransaction, hd, ha, diskReadPath, (reqInMain_eq_false_iff s).2 hm]

/-- R121: the range lies inside main memory and the storage takes the sector. -/
theorem diskTransaction_write_inside {s : State} (hd : reqDirection s ≠ 0) (ha : s.env.diskAnswer = .returns .ok)
    (hm : (reqAddr s).toNat + s.cfg.sectorSize ≤ s.cfg.memSize) :
    diskTransaction s = .done statusOk ((s.withEnv s.env.afterDisk).withDisk
      (s.disk.write s.cfg.sectorSize (reqSector s).toNat (s.mem.readBlock (reqAddr s).toNat s.cfg.sectorSize))) := by
  rw [diskTransaction, if_neg hd]
  simp [diskWritePath, ha, (reqInMain_iff s).2 hm]

/-- R122: on the write path a range that leaves main memory ends the transaction before the storage is asked. -/
theorem diskTransaction_write_outside {s : State} (hd : reqDirection s ≠ 0)
    (hm : s.cfg.memSize < (reqAddr s).toNat + s.cfg.sectorSize) :
    diskTransaction s = .done statusOverflow (s.withEnv s.env.afterDisk) := by
  rw [diskTransaction, if_neg hd]
  simp [diskWritePath, (reqInMain_eq_false_iff s).2 hm]

/-- A transaction takes one answer of the storage (R82; log entry 10). -/
theorem DiskCase.env_eq {s s' : State} {v : Byte} (h : DiskCase s v s') : s'.env = s.env.afterDisk := by
  cases h <;> rfl

/-- A transaction writes main memory inside its transfer range only (R117, R120). -/
theorem DiskCase.mem_read_outside {s s' : State} {v : Byte} (h : DiskCase s v s') (hm : s.mem.wf = true) {x : Nat}
    (hx : x < (reqAddr s).toNat ∨ (reqAddr s).toNat + s.cfg.sectorSize ≤ x) : s'.mem.read x = s.mem.read x := by
  cases h with
  | rejected => rfl
  | readIn => exact Memory.read_writeBlock_outside hm (by simpa using hx)
  | writtenOut => rfl
  | torn => rfl

/-- A transaction writes no sector but its request's (R117, R121, R123). -/
theorem DiskCase.disk_read_other {s s' : State} {v : Byte} (h : DiskCase s v s') (hd : s.disk.wf s.cfg.sectorSize = true)
    {n : Nat} (hn : n ≠ (reqSector s).toNat) :
    s'.disk.read s.cfg.sectorSize n = s.disk.read s.cfg.sectorSize n := by
  cases h with
  | rejected => rfl
  | readIn => rfl
  | writtenOut => exact (Disk.read_write hd _ _ n).trans (if_neg hn)
  | torn => exact (Disk.read_write hd _ _ n).trans (if_neg hn)

/-- The write path never writes main memory (R121). -/
theorem DiskCase.mem_eq_of_write {s s' : State} {v : Byte} (h : DiskCase s v s') (hd : reqDirection s ≠ 0) :
    s'.mem = s.mem := by
  cases h with
  | rejected => rfl
  | readIn h0 => exact absurd h0 hd
  | writtenOut => rfl
  | torn => rfl

/-- A read-path transaction with status 0 has copied its sector to its range (R120). -/
theorem DiskCase.mem_eq_of_read_ok {s s' : State} {v : Byte} (h : DiskCase s v s') (hv : v = statusOk)
    (hd : reqDirection s = 0) :
    s'.mem = s.mem.writeBlock (reqAddr s).toNat (s.disk.read s.cfg.sectorSize (reqSector s).toNat) := by
  cases h with
  | rejected hne => exact absurd hv hne
  | readIn => rfl
  | writtenOut h0 => exact absurd hd h0
  | torn => exact absurd hv (errorStatus_ne_zero _)

/-- A write-path transaction with status 0 has stored its range as its sector (R121). -/
theorem DiskCase.disk_eq_of_write_ok {s s' : State} {v : Byte} (h : DiskCase s v s') (hv : v = statusOk)
    (hd : reqDirection s ≠ 0) :
    s'.disk = s.disk.write s.cfg.sectorSize (reqSector s).toNat
      (s.mem.readBlock (reqAddr s).toNat s.cfg.sectorSize) := by
  cases h with
  | rejected hne => exact absurd hv hne
  | readIn h0 => exact absurd h0 hd
  | writtenOut => rfl
  | torn => exact absurd hv (errorStatus_ne_zero _)

theorem fit_readBlock (m : Memory) (i n : Nat) : fit n (m.readBlock i n) = m.readBlock i n := by
  have h := fit_of_length (m.readBlock i n)
  rwa [Memory.readBlock_length] at h

/-- A memory block stored as a sector is what the sector then holds. -/
theorem Disk.read_write_readBlock {d : Disk} {size : Nat} (h : d.wf size = true) (sector : Nat) (m : Memory) (i : Nat) :
    (d.write size sector (m.readBlock i size)).read size sector = m.readBlock i size := by
  rw [Disk.read_write h, if_pos rfl, fit_readBlock]

/-- A sector copied to memory is what the range then holds. -/
theorem Memory.readBlock_writeBlock_sector {m : Memory} (h : m.wf = true) (i : Nat) (d : Disk) (size sector : Nat) :
    (m.writeBlock i (d.read size sector)).readBlock i size = d.read size sector := by
  have hback := Memory.readBlock_writeBlock h i (d.read size sector)
  rwa [Disk.read_length] at hback

/-- Settles O31: the copied sector is read back as a block, and a block write leaves the bytes around it. -/
theorem diskReadCopiesSector : Obligations.DiskReadCopiesSector := by
  intro s hi hd ha hm
  have hwf : s.mem.wf = true := ((inv_iff s).1 hi).1
  have htr := diskTransaction_read_inside hd ha hm
  refine ⟨_, htr, rfl, rfl, fun k hk => ?_, fun x hx => (diskTransaction_cases htr).mem_read_outside hwf hx⟩
  rw [← Memory.readBlock_getElem? _ hk, State.withMem_mem, Memory.readBlock_writeBlock_sector hwf]

/-- Settles O32: the two sides of the range test on the read path. -/
theorem diskReadOverflowCopiesNothing : Obligations.DiskReadOverflowCopiesNothing := by
  intro s hd ha
  exact ⟨fun hm => ⟨_, diskTransaction_read_outside hd ha hm, rfl, rfl⟩,
    fun hm => ⟨_, diskTransaction_read_inside hd ha hm.le⟩⟩

/-- Settles O34: the stored block is read back from its sector, and no case of the write path writes memory. -/
theorem diskWriteStoresSector : Obligations.DiskWriteStoresSector := by
  intro s hi hd
  obtain ⟨-, -, -, -, hdisk⟩ := (inv_iff s).1 hi
  refine ⟨fun ha hm => ?_, fun v t h => (diskTransaction_cases h).mem_eq_of_write hd⟩
  have htr := diskTransaction_write_inside hd ha hm
  exact ⟨_, htr, Disk.read_write_readBlock hdisk _ _ _, fun n hn => (diskTransaction_cases htr).disk_read_other hdisk hn⟩

/-- Settles O35: the range test of the write path precedes the storage call. -/
theorem diskWriteOverflowWritesNothing : Obligations.DiskWriteOverflowWritesNothing := by
  intro s hd hm
  exact diskTransaction_write_outside hd hm

/-- Settles O37: a code in `1 .. 255` fits a byte, and every other one is replaced by 255. -/
theorem errorStatusIsRepresentableCode : Obligations.ErrorStatusIsRepresentableCode := by
  intro code
  by_cases hc : 1 ≤ code ∧ code ≤ 255
  · have hs : (errorStatus code).toNat = code := by
      rw [errorStatus, if_pos hc, BitVec.toNat_ofNat]
      omega
    omega
  · have hs : (errorStatus code).toNat = 255 := by
      rw [errorStatus, if_neg hc]
      rfl
    omega

/-- Settles O38: `map` is unchanged, and the request is read from `map` alone. -/
theorem transactionKeepsRequest : Obligations.TransactionKeepsRequest := by
  intro s t v h
  obtain ⟨hcfg, hip, hrun, hmap, hframes⟩ := (diskTransaction_cases h).frame
  simp only [reqSector, reqAddr, reqDirection, hcfg, hip, hrun, hmap, hframes, and_self]

/-- Settles O39: the sector holds the original block after the write, still does before the read, and the read copies it back. -/
theorem diskRoundTripRestoresBytes : Obligations.DiskRoundTripRestoresBytes := by
  intro s s1 s2 s3 hi hd hwrite hi2 hcfg hsector haddr hd2 hkept hread
  obtain ⟨-, -, -, -, hdisk⟩ := (inv_iff s).1 hi
  have hmem2 : s2.mem.wf = true := ((inv_iff s2).1 hi2).1
  have hs1 := (diskTransaction_cases hwrite).disk_eq_of_write_ok rfl hd
  have hs3 := (diskTransaction_cases hread).mem_eq_of_read_ok rfl hd2
  rw [hcfg, hsector, haddr] at hs3
  calc s3.mem.readBlock (reqAddr s).toNat s.cfg.sectorSize
      = s2.disk.read s.cfg.sectorSize (reqSector s).toNat := by rw [hs3, Memory.readBlock_writeBlock_sector hmem2]
    _ = s1.disk.read s.cfg.sectorSize (reqSector s).toNat := hkept
    _ = s.mem.readBlock (reqAddr s).toNat s.cfg.sectorSize := by rw [hs1, Disk.read_write_readBlock hdisk]

end Sys2Proof.Machine
end

section
/-! MOVE at the disk trigger (R56, R92, R93, R112, R116): how its forms complete. -/

namespace Sys2Proof.Machine

/-- A write at `MAP_START` completes with the transaction it runs, whose status is discarded (R56). -/
theorem memWrite_of_diskTransaction {role : Role} {b : Word} {v w : Byte} {s s' : State} (hb : b = s.cfg.mapStart)
    (hd : diskTransaction (storeOff0 v s) = .done w s') : memWrite role b v s = .done () s' := by
  rw [hb, memWrite_mapStart, hd]
  rfl

/-- Settles O16: the read is the transaction, which keeps the invariant and `cfg`, and the write stores its status in its state. -/
theorem moveFromTriggerWritesStatus : Obligations.MoveFromTriggerWritesStatus := by
  intro s s1 b c v hi hd hb
  have hcase := diskTransaction_cases hd
  obtain ⟨hm, -, hp, -⟩ := (inv_iff s1).1 (hcase.inv hi)
  rw [← hcase.frame.1] at hb
  obtain ⟨t, hw, hsame, hwritten⟩ := memWrite_selectsByte hm hp hb
  exact ⟨t.withIp c, exec_move_done ((memRead_mapStart .source s).trans hd) hw, rfl, hsame, hwritten⟩

/-- Settles O17: the source is a stored byte, and the write runs the transaction in the state `storeOff0` leaves. -/
theorem moveToTriggerRunsTransaction : Obligations.MoveToTriggerRunsTransaction := by
  rintro s _ s1 a c w ha rfl hd
  exact exec_move_done (memRead_selectsByte ha) (memWrite_of_diskTransaction rfl hd)

/-- Settles O18: the read runs the first transaction, which keeps `MAP_START`, so the write runs the second in its state. -/
theorem moveTriggerToTriggerRunsTwo : Obligations.MoveTriggerToTriggerRunsTwo := by
  intro s s1 s2 s3 c v w hd1 hs2 hd2
  have hcfg : s1.cfg = s.cfg := (diskTransaction_cases hd1).frame.1
  have hstore : s2 = storeOff0 v s1 := by
    rw [hs2, storeOff0, hcfg]
  subst hstore
  exact exec_move_done ((memRead_mapStart .source s).trans hd1) (memWrite_of_diskTransaction (by rw [hcfg]) hd2)

end Sys2Proof.Machine
end

section
/-! Frames of MOVE at the disk trigger (R117, R120, R121, R125): what its transactions and its stored byte leave unchanged. -/

namespace Sys2Proof.Machine

theorem addressOk_mapStart (c : Config) : addressOk c c.mapStart = true := (addressOk_iff _ _).2 (.inr rfl)

theorem storeOff0_map (v : Byte) (s : State) :
    (storeOff0 v s).map = if s.cfg.off0WriteStores = true then s.map.write 0 v else s.map := by
  unfold storeOff0
  split <;> rfl

/-- A byte written to offset 0 is stored there or dropped, and no other mapped byte changes (R28, R56). -/
theorem storeOff0_map_read {s : State} (hm : s.map.wf = true) (v : Byte) {o : Nat}
    (ho : o ≠ 0 ∨ s.cfg.off0WriteStores = false) : (storeOff0 v s).map.read o = s.map.read o := by
  rw [storeOff0_map]
  split
  · next hs => rw [Memory.read_write hm, if_neg (ho.resolve_right (by simp [hs]))]
  · rfl

/-- The byte at offset 0 is no byte of the field `addr` (R26). -/
theorem reqAddr_storeOff0 {s : State} (hm : s.map.wf = true) (v : Byte) : reqAddr (storeOff0 v s) = reqAddr s := by
  have hbytes : (storeOff0 v s).map.readBlock addrOffset 8 = s.map.readBlock addrOffset 8 :=
    Memory.readBlock_congr fun o ho _ => storeOff0_map_read hm v (.inl (by unfold addrOffset at ho; omega))
  rw [reqAddr, Memory.word, hbytes]
  rfl

/-- The sector a write to offset 0 asks for is read from `map` alone, after the byte is stored. -/
theorem reqSector_storeOff0_congr {s s' : State} (hcfg : s'.cfg = s.cfg) (hmap : s'.map = s.map) (v : Byte) :
    reqSector (storeOff0 v s') = reqSector (storeOff0 v s) := by
  simp only [reqSector, storeOff0_map, hcfg, hmap]

/-- What a write to offset 0 leaves unchanged: its transaction has the range of the request before the byte was stored, and the
sector of the request after it. -/
theorem DiskCase.frame_of_storeOff0 {s t : State} {v w : Byte} (h : DiskCase (storeOff0 v s) w t) (hi : s.inv = true) :
    t.cfg = s.cfg ∧ t.run = s.run ∧ t.frames = s.frames ∧ t.env = s.env.afterDisk ∧
    (∀ x, (x < (reqAddr s).toNat ∨ (reqAddr s).toNat + s.cfg.sectorSize ≤ x) → t.mem.read x = s.mem.read x) ∧
    (∀ o, o ≠ 0 ∨ s.cfg.off0WriteStores = false → t.map.read o = s.map.read o) ∧
    (∀ n, n ≠ (reqSector (storeOff0 v s)).toNat →
      t.disk.read s.cfg.sectorSize n = s.disk.read s.cfg.sectorSize n) := by
  obtain ⟨hcfg0, -, hrun0, hmem0, hdisk0, hframes0, henv0⟩ := storeOff0_frame v s
  obtain ⟨hcfg, -, hrun, hmap, hframes⟩ := h.frame
  obtain ⟨hm, -, hp, -, hd⟩ := (inv_iff s).1 hi
  refine ⟨hcfg.trans hcfg0, hrun.trans hrun0, hframes.trans hframes0, by rw [h.env_eq, henv0], fun x hx => ?_, fun o ho => ?_,
    fun n hn => ?_⟩
  · rw [h.mem_read_outside (by rwa [hmem0]) (by rwa [reqAddr_storeOff0 hp, hcfg0]), hmem0]
  · rw [hmap, storeOff0_map_read hp v ho]
  · have hkept := h.disk_read_other (by rwa [hcfg0, hdisk0]) hn
    rwa [hcfg0, hdisk0] at hkept

theorem ReadCase.diskTransaction_of_mapStart {s s' : State} {v : Byte} (h : ReadCase s.cfg.mapStart s v s') :
    diskTransaction s = .done v s' := by
  cases h with
  | main hs => exact absurd rfl (ne_mapStart_of_selectsByte (.inl hs))
  | mapped hs => exact absurd rfl (ne_mapStart_of_selectsByte (.inr hs))
  | disk _ hd => exact hd

theorem WriteCase.diskTransaction_of_mapStart {b : Word} {v : Byte} {s s' : State} (h : WriteCase b v s s')
    (hb : b = s.cfg.mapStart) : ∃ w, diskTransaction (storeOff0 v s) = .done w s' := by
  cases h with
  | main hs => exact absurd hb (ne_mapStart_of_selectsByte (.inl hs))
  | mapped hs => exact absurd hb (ne_mapStart_of_selectsByte (.inr hs))
  | disk _ hd => exact ⟨_, hd⟩

/-- A read away from `MAP_START` answers the stored byte its address selects. -/
theorem ReadCase.eq_operandByte_of_ne_mapStart {a : Word} {v : Byte} {s s' : State} (h : ReadCase a s v s')
    (ha : a ≠ s.cfg.mapStart) : v = operandByte s a := by
  cases h with
  | main hs => exact (if_pos hs.1).symm
  | mapped hs => exact (if_neg (Nat.lt_asymm hs.1)).symm
  | disk he => exact absurd he ha

/-- A MOVE whose source is `MAP_START` runs a transaction, then faults at its destination or makes its write. -/
theorem MoveCase.of_source_mapStart {b c : Word} {s t : State} (h : MoveCase s.cfg.mapStart b c s t) :
    ∃ v s1, diskTransaction s = .done v s1 ∧
      ((addressOk s1.cfg b = false ∧ ∃ f, t = raiseFatal f s1) ∨ ∃ s2, WriteCase b v s1 s2 ∧ t = s2.withIp c) := by
  cases h with
  | moved hr hw => exact ⟨_, _, hr.diskTransaction_of_mapStart, .inr ⟨_, hw, rfl⟩⟩
  | sourceFault hn => exact absurd (addressOk_mapStart s.cfg) (by simp [hn])
  | destinationFault hr hn => exact ⟨_, _, hr.diskTransaction_of_mapStart, .inl ⟨hn, _, rfl⟩⟩

/-- A MOVE whose destination alone is `MAP_START` faults at its source, or runs a transaction after its byte is stored. -/
theorem MoveCase.of_destination_mapStart {a c : Word} {s t : State} (h : MoveCase a s.cfg.mapStart c s t)
    (ha : a ≠ s.cfg.mapStart) :
    (addressOk s.cfg a = false ∧ ∃ f, t = raiseFatal f s) ∨
    (addressOk s.cfg a = true ∧ ∃ w s', diskTransaction (storeOff0 (operandByte s a) s) = .done w s' ∧ t = s'.withIp c) := by
  cases h with
  | moved hr hw =>
    obtain rfl := hr.eq_of_ne_mapStart ha
    obtain rfl := hr.eq_operandByte_of_ne_mapStart ha
    obtain ⟨w, hd⟩ := hw.diskTransaction_of_mapStart rfl
    exact .inr ⟨hr.addressOk_eq_true, w, _, hd, rfl⟩
  | sourceFault hn => exact .inl ⟨hn, _, rfl⟩
  | destinationFault hr hn =>
    rw [hr.frame.1, addressOk_mapStart] at hn
    cases hn

/-- After the transaction of a MOVE from `MAP_START` only the byte its destination selects changes, where it does not fault. -/
theorem MoveCase.frame_after_source_mapStart {b c : Word} {s t : State} (h : MoveCase s.cfg.mapStart b c s t)
    (hi : s.inv = true) (hb : b ≠ s.cfg.mapStart) :
    ∃ v s1, diskTransaction s = .done v s1 ∧ t.cfg = s1.cfg ∧ t.frames = s1.frames ∧ t.env = s1.env ∧ t.disk = s1.disk ∧
      (∀ x, ¬ (selectsMain s.cfg b ∧ x = b.toNat) → t.mem.read x = s1.mem.read x) ∧
      (∀ o, ¬ (selectsMapped s.cfg b ∧ o = mappedOffset s.cfg b) → t.map.read o = s1.map.read o) := by
  obtain ⟨v, s1, hd, hend⟩ := h.of_source_mapStart
  have hcfg : s1.cfg = s.cfg := (diskTransaction_cases hd).frame.1
  refine ⟨v, s1, hd, ?_⟩
  rcases hend with ⟨-, f, rfl⟩ | ⟨s2, hw, rfl⟩
  · simp
  · obtain ⟨hm, -, hp, -⟩ := (inv_iff s1).1 ((diskTransaction_cases hd).inv hi)
    rw [← hcfg] at hb ⊢
    obtain ⟨hcfg2, -, hdisk, hframes, henv⟩ := hw.sameElsewhere_of_ne_mapStart hb
    obtain ⟨hmem, hmap⟩ := hw.writtenAt_of_ne_mapStart hb hm hp
    exact ⟨hcfg2, hframes, henv, hdisk, fun x hx => (hmem x).trans (if_neg hx), fun o ho => (hmap o).trans (if_neg ho)⟩

/-- Settles O24: the transaction, then at most the one byte of the destination. -/
theorem frameOfMoveFromTrigger : Obligations.FrameOfMoveFromTrigger := by
  intro s t b c hi hb h
  obtain ⟨v, s1, hd, hcfg, hframes, henv, hdisk, hmem, hmap⟩ := (execMove_cases h).frame_after_source_mapStart hi hb
  have hcase := diskTransaction_cases hd
  obtain ⟨hcfg1, -, -, hmap1, hframes1⟩ := hcase.frame
  obtain ⟨hm, -, -, -, hdwf⟩ := (inv_iff s).1 hi
  exact ⟨hcfg.trans hcfg1, hframes.trans hframes1, henv.trans hcase.env_eq,
    fun x hx hne => (hmem x hne).trans (hcase.mem_read_outside hm hx),
    fun o ho => (hmap o ho).trans (by rw [hmap1]),
    fun n hn => by rw [hdisk, hcase.disk_read_other hdwf hn]⟩

/-- Settles O25: a source fault changes only `run`; otherwise the byte is stored or dropped, then one transaction runs. -/
theorem frameOfMoveToTrigger : Obligations.FrameOfMoveToTrigger := by
  intro s t a c hi ha h
  rcases (execMove_cases h).of_destination_mapStart ha with ⟨hn, f, rfl⟩ | ⟨hok, w, s', hd, rfl⟩
  · simp [hn]
  · obtain ⟨hcfg, -, hframes, henv, hrest⟩ := (diskTransaction_cases hd).frame_of_storeOff0 hi
    rw [if_pos hok]
    exact ⟨hcfg, hframes, henv, hrest⟩

/-- Settles O26: the first transaction keeps the invariant and the request, so the second has the same range, and its sector is
that of the first one's status stored. -/
theorem frameOfMoveTriggerToTrigger : Obligations.FrameOfMoveTriggerToTrigger := by
  intro s s1 t c v hi hd h
  have hcase := diskTransaction_cases hd
  obtain ⟨hcfg1, -, hrun1, hmap1, hframes1⟩ := hcase.frame
  obtain ⟨-, -, haddr1, -⟩ := transactionKeepsRequest s s1 v hd
  obtain ⟨hm, -, -, -, hdwf⟩ := (inv_iff s).1 hi
  obtain ⟨v', s1', hd', hend⟩ := (execMove_cases h).of_source_mapStart
  cases hd.symm.trans hd'
  rcases hend with ⟨hn, -⟩ | ⟨s2, hw, rfl⟩
  · rw [hcfg1, addressOk_mapStart] at hn
    cases hn
  · obtain ⟨w, hd2⟩ := hw.diskTransaction_of_mapStart (by rw [hcfg1])
    obtain ⟨hcfg, hrun, hframes, henv, hmem, hmap, hdisk⟩ := (diskTransaction_cases hd2).frame_of_storeOff0 (hcase.inv hi)
    rw [haddr1, hcfg1] at hmem
    rw [hcfg1, hmap1] at hmap
    rw [reqSector_storeOff0_congr hcfg1 hmap1, hcfg1] at hdisk
    exact ⟨hcfg.trans hcfg1, hrun.trans hrun1, hframes.trans hframes1, henv.trans (congrArg Env.afterDisk hcase.env_eq),
      fun x hx => (hmem x hx).trans (hcase.mem_read_outside hm hx), hmap,
      fun n hn hn2 => (hdisk n hn2).trans (hcase.disk_read_other hdwf hn)⟩

end Sys2Proof.Machine
end

section
/-! The framebuffer (R130, R136 to R139): what a frame holds, which cycles present one, and what writes a framebuffer byte. -/

namespace Sys2Proof.Machine

theorem Memory.read_cons (k : Nat) (v : Byte) (m : Memory) (a : Nat) :
    Memory.read ((k, v) :: m) a = if a = k then v else m.read a := rfl

theorem window_cons_inside {base n k : Nat} (h : base ≤ k ∧ k < base + n) (v : Byte) (m : Memory) :
    window base n ((k, v) :: m) = (k - base, v) :: window base n m :=
  List.filterMap_cons_some (if_pos h)

theorem window_cons_outside {base n k : Nat} (h : ¬ (base ≤ k ∧ k < base + n)) (v : Byte) (m : Memory) :
    window base n ((k, v) :: m) = window base n m :=
  List.filterMap_cons_none (if_neg h)

/-- A window holds the bytes of its range, by their distance from its base, and nothing else. -/
theorem window_read (base n : Nat) (m : Memory) (k : Nat) :
    (window base n m).read k = if k < n then m.read (base + k) else 0 := by
  induction m with
  | nil => exact (ite_self _).symm
  | cons cell m ih =>
    obtain ⟨key, v⟩ := cell
    by_cases hin : base ≤ key ∧ key < base + n
    · have hkey : k = key - base ↔ base + k = key := by omega
      rw [window_cons_inside hin, Memory.read_cons, Memory.read_cons, ih]
      by_cases he : base + k = key
      · rw [if_pos (hkey.2 he), if_pos he, if_pos (by omega)]
      · rw [if_neg (mt hkey.1 he), if_neg he]
    · rw [window_cons_outside hin, Memory.read_cons, ih]
      by_cases hk : k < n
      · have hne : ¬ base + k = key := by omega
        rw [if_pos hk, if_pos hk, if_neg hne]
      · rw [if_neg hk, if_neg hk]

/-- Settles O46: the snapshot is the window of `map` at the framebuffer. -/
theorem snapshotIsFramebuffer : Obligations.SnapshotIsFramebuffer := by
  intro s k
  exact ⟨rfl, rfl, window_read s.cfg.fbBase s.cfg.fbSize s.map k⟩

@[simp] theorem afterRefresh_ip (keys : Option (List Byte)) (s : State) : (afterRefresh keys s).ip = s.ip := by
  simp [afterRefresh]

@[simp] theorem afterRefresh_frames (keys : Option (List Byte)) (s : State) : (afterRefresh keys s).frames = s.frames := by
  simp [afterRefresh]

@[simp] theorem afterRefresh_run (keys : Option (List Byte)) (s : State) : (afterRefresh keys s).run = s.run := by
  simp [afterRefresh]

/-- An instruction fetched after the refresh is the one foreseen before it, which reads the same `ip`, `mem` and `cfg`. -/
theorem runsNext_of_fetch_done {s s' : State} {keys : Option (List Byte)} {i : Instr} (hr : s.run = .running)
    (hk : s.env.keysAnswer = .returns keys) (hf : fetch (afterRefresh keys s) = .done i s') : runsNext s keys i := by
  obtain ⟨-, hb, hi⟩ := fetch_done hf
  obtain ⟨hcfg, hmem, -⟩ := afterRefresh_frame keys s
  rw [afterRefresh_ip] at hb hi
  rw [hcfg] at hb
  rw [hmem] at hi
  exact ⟨hr, hk, hb, hi ▸ decode_readBlock s.mem s.ip.toNat⟩

/-- A step that has a next state faults at its fetch, or runs the instruction foreseen and ends the cycle (R86). -/
theorem step_fetchFault_or_runsNext {s t : State} (h : step s = .next t) :
    (∃ keys, t = raiseFatal (.fetchOob s.ip) (afterRefresh keys s)) ∨
    ∃ keys i s', runsNext s keys i ∧ exec i (afterRefresh keys s) = .next s' ∧ endCycle s' = .next t := by
  cases step_cases h with
  | fetchFault => exact .inl ⟨_, rfl⟩
  | ran hr hk h1 hf hx he =>
    subst h1
    exact .inr ⟨_, _, _, runsNext_of_fetch_done hr hk hf, hx, he⟩

theorem exec_frames {i : Instr} {s t : State} (h : exec i s = .next t) : t.frames = s.frames := by
  cases i with
  | dbgtrap start len =>
    obtain ⟨r, rfl⟩ := execDbgTrap_next h
    rfl
  | move a b c =>
    cases execMove_cases h with
    | moved hr hw =>
      obtain ⟨-, -, -, -, hread⟩ := hr.frame
      obtain ⟨-, -, -, hwrite⟩ := hw.frame
      exact hwrite.trans hread
    | sourceFault => rfl
    | destinationFault hr =>
      obtain ⟨-, -, -, -, hread⟩ := hr.frame
      exact hread

/-- An instruction leaves the run state as it was, or ends in a fault or a trap. -/
theorem exec_run {i : Instr} {s t : State} (h : exec i s = .next t) :
    t.run = s.run ∨ (t.faulted = true ∨ ∃ dump, t.run = .halted (.debugTrap dump)) := by
  cases i with
  | dbgtrap start len =>
    rcases Nat.lt_or_ge s.cfg.memSize (start.toNat + len.toNat) with hout | hin
    · cases h.symm.trans (exec_dbgtrap_outside hout)
      exact .inr (.inl rfl)
    · cases h.symm.trans (exec_dbgtrap_inside hin)
      exact .inr (.inr ⟨_, rfl⟩)
  | move a b c =>
    cases execMove_cases h with
    | moved hr hw =>
      obtain ⟨-, -, hread, -⟩ := hr.frame
      obtain ⟨-, -, hwrite, -⟩ := hw.frame
      exact .inl (hwrite.trans hread)
    | sourceFault => exact .inr (.inl rfl)
    | destinationFault => exact .inr (.inl rfl)

/-- A state that faulted or trapped is halted. -/
theorem halted_of_faulted_or_trapped {s : State}
    (h : s.faulted = true ∨ ∃ dump, s.run = .halted (.debugTrap dump)) : ∃ r, s.run = .halted r := by
  rcases h with hf | ⟨dump, hd⟩
  · cases hrun : s.run with
    | running => simp [State.faulted, hrun] at hf
    | halted r => exact ⟨r, rfl⟩
  · exact ⟨_, hd⟩

/-- The frame presented at the end of a cycle is the framebuffer of the state the cycle ends in (R90, R139). -/
theorem endCycle_frames_of_running {s t : State} (h : endCycle s = .next t) (hr : s.run = .running) :
    t.frames = frameOf t :: s.frames := by
  rcases endCycle_next h with ⟨hn, -⟩ | ⟨-, isOpen, -, -, rfl⟩
  · exact absurd hr hn
  · rfl

/-- Settles O13: only the end of the cycle presents, and it does so just where the instruction left the machine Running. -/
theorem oneFramePerCompletedMove : Obligations.OneFramePerCompletedMove := by
  intro s t h
  rcases step_fetchFault_or_runsNext h with ⟨keys, rfl⟩ | ⟨keys, i, s', hn, hx, he⟩
  · exact .inr ⟨.inl rfl, afterRefresh_frames keys s⟩
  · have hframes : s'.frames = s.frames := (exec_frames hx).trans (afterRefresh_frames keys s)
    rcases exec_run hx with hrun | hend
    · have hr : s'.run = .running := hrun.trans ((afterRefresh_run keys s).trans hn.1)
      exact .inl ⟨endCycle_run_of_running he hr, hframes ▸ endCycle_frames_of_running he hr⟩
    · obtain ⟨r, hr⟩ := halted_of_faulted_or_trapped hend
      obtain rfl := eq_of_endCycle_halted he hr
      exact .inr ⟨hend, hframes⟩

/-- The refresh writes the keyboard slots only (R145). -/
theorem refresh_map_read_outside {s : State} (hm : s.map.wf = true) (keys : Option (List Byte)) {o : Nat}
    (ho : o < s.cfg.kbBase ∨ s.cfg.kbBase + kbLen ≤ o) : (refresh keys s).map.read o = s.map.read o := by
  cases keys with
  | none => rfl
  | some ks => exact Memory.read_writeBlock_outside hm (by simpa using ho)

theorem fbBase_pos (c : Config) : 0 < c.fbBase := by
  unfold Config.fbBase
  cases c.drqSize <;> decide

/-- A decoded write changes a mapped byte other than `map[0]` only at that byte's address (R56, R137). -/
theorem WriteCase.address_of_map_read_ne {b : Word} {v : Byte} {s s' : State} {o : Nat} (h : WriteCase b v s s')
    (hm : s.map.wf = true) (ho : o ≠ 0) (hne : s'.map.read o ≠ s.map.read o) : b.toNat = s.cfg.mapStart.toNat + o := by
  cases h with
  | main => exact absurd rfl hne
  | mapped hs =>
    have heq : o = mappedOffset s.cfg b := by
      by_contra hother
      exact hne ((Memory.read_write hm _ _ _).trans (if_neg hother))
    have := hs.1
    unfold mappedOffset at heq
    omega
  | disk _ hd =>
    obtain ⟨-, -, -, hmap, -⟩ := (diskTransaction_cases hd).frame
    exact absurd ((congrArg (Memory.read · o) hmap).trans (storeOff0_map_read hm v (.inl ho))) hne

/-- Only a MOVE changes a mapped byte other than `map[0]`, and its destination is that byte's address. -/
theorem exec_eq_move_of_map_read_ne {i : Instr} {s t : State} {o : Nat} (h : exec i s = .next t) (hm : s.map.wf = true)
    (ho : o ≠ 0) (hne : t.map.read o ≠ s.map.read o) :
    ∃ a b c, i = .move a b c ∧ b.toNat = s.cfg.mapStart.toNat + o := by
  cases i with
  | dbgtrap start len =>
    obtain ⟨r, rfl⟩ := execDbgTrap_next h
    exact absurd rfl hne
  | move a b c =>
    refine ⟨a, b, c, rfl, ?_⟩
    cases execMove_cases h with
    | moved hr hw =>
      obtain ⟨hcfg, -, -, hmap, -⟩ := hr.frame
      rw [← hmap] at hm hne
      rw [← hcfg]
      exact hw.address_of_map_read_ne hm ho hne
    | sourceFault => exact absurd rfl hne
    | destinationFault hr =>
      obtain ⟨-, -, -, hmap, -⟩ := hr.frame
      exact absurd (congrArg (Memory.read · o) hmap) hne

/-- Settles O48: the refresh writes above the framebuffer and the end of the cycle writes nothing, so the byte is one the
instruction changed. -/
theorem onlyMoveWritesFramebuffer : Obligations.OnlyMoveWritesFramebuffer := by
  intro s t o hi h hlo hhi hne
  obtain ⟨-, -, hm, -⟩ := (inv_iff s).1 hi
  have ho : o ≠ 0 := ((fbBase_pos s.cfg).trans_le hlo).ne'
  have hrefresh (keys) : (afterRefresh keys s).map.read o = s.map.read o :=
    refresh_map_read_outside (s := s.withEnv s.env.afterKeys) hm keys (.inl hhi)
  rcases step_fetchFault_or_runsNext h with ⟨keys, rfl⟩ | ⟨keys, i, s', hn, hx, he⟩
  · exact absurd (hrefresh keys) hne
  · obtain ⟨-, hmap, -⟩ := endCycle_frame he
    obtain ⟨hcfg, -⟩ := afterRefresh_frame keys s
    rw [hmap, ← hrefresh keys] at hne
    obtain ⟨a, b, c, rfl, hb⟩ := exec_eq_move_of_map_read_ne hx (afterRefresh_map_wf hm keys) ho hne
    exact ⟨keys, a, b, c, hn, hcfg ▸ hb⟩

end Sys2Proof.Machine
end

section
/-! The keyboard (R142 to R151): what a refresh leaves in the slots and outside them, and the MOVE that reads a slot in the cycle of
that refresh. -/

namespace Sys2Proof.Machine

/-- Settles O9: the fatal fetch raises its fault in the state the refresh left. -/
theorem fetchOutsideMemoryHalts : Obligations.FetchOutsideMemoryHalts := by
  intro s keys hr hk hb
  exact step_fetch_outside hr hk hb

/-- R146, R149: the slots hold the bytes of the snapshot, completed with `KB_PAD`. -/
theorem keySlot_refresh {s : State} (hm : s.map.wf = true) (ks : List Byte) {j : Nat} (hj : j < kbLen) :
    keySlot (refresh (some ks) s) j = (ks[j]?).getD s.cfg.kbPad :=
  calc (s.map.writeBlock s.cfg.kbBase (slotBytes s.cfg.kbPad kbLen ks)).read (s.cfg.kbBase + j)
    _ = ((slotBytes s.cfg.kbPad kbLen ks)[j]?).getD (s.map.read (s.cfg.kbBase + j)) := by
      rw [Memory.read_writeBlock hm, if_pos (Nat.le_add_right _ _), Nat.add_sub_cancel_left]
    _ = (ks[j]?).getD s.cfg.kbPad := by rw [slotBytes_getElem? _ hj, Option.getD_some]

/-- Settles O49: the slots hold the bytes of the snapshot, and without one the refresh stores `map` as it is. -/
theorem refreshFillsSlots : Obligations.RefreshFillsSlots := by
  intro s
  refine ⟨fun ks j hi hj => ?_, rfl⟩
  obtain ⟨-, -, hm, -⟩ := (inv_iff s).1 hi
  exact (keySlot_refresh hm ks hj).trans List.getD_getElem?

/-- R147: the keys past the last slot are not looked at. -/
theorem slotBytes_take (pad : Byte) (n : Nat) (ks : List Byte) : slotBytes pad n (ks.take n) = slotBytes pad n ks := by
  induction n generalizing ks with
  | zero => rfl
  | succ n ih =>
    cases ks with
    | nil => rfl
    | cons k ks => rw [List.take_succ_cons, slotBytes, slotBytes, ih]

/-- Settles O50: both snapshots give the same sixteen slot bytes. -/
theorem refreshCutsToSixteen : Obligations.RefreshCutsToSixteen := by
  intro s ks _
  have hslots : slotBytes s.cfg.kbPad kbLen (ks.take 16) = slotBytes s.cfg.kbPad kbLen ks := slotBytes_take _ _ _
  simp only [refresh, hslots]

/-- Settles O51: the refresh is an update of `map`, whose bytes outside the slots it keeps. -/
theorem refreshWritesOnlySlots : Obligations.RefreshWritesOnlySlots := by
  intro s keys hi
  obtain ⟨-, -, hm, -⟩ := (inv_iff s).1 hi
  exact ⟨fun _ ho => refresh_map_read_outside hm keys ho, _, rfl⟩

/-- R9, R26: a key slot is a stored byte of the mapped region, above the disk trigger. -/
theorem selectsMapped_of_keySlot_address {c : Config} {a : Word} {j : Nat} (hj : j < kbLen)
    (ha : a.toNat = c.mapStart.toNat + c.kbBase + j) : selectsMapped c a := by
  have hpos : 0 < c.kbBase := Nat.add_pos_left (fbBase_pos c) _
  have hend : c.regionSize = c.kbBase + kbLen := rfl
  exact ⟨by omega, by omega⟩

theorem operandByte_of_keySlot_address {s : State} {a : Word} {j : Nat}
    (ha : a.toNat = s.cfg.mapStart.toNat + s.cfg.kbBase + j) : operandByte s a = keySlot s j := by
  have hoff : mappedOffset s.cfg a = s.cfg.kbBase + j := by
    unfold mappedOffset
    omega
  rw [operandByte, if_neg (by omega), hoff, keySlot]

/-- Settles O52: the MOVE copies slot `j` as the refresh of its cycle filled it, and the end of the cycle writes nothing. -/
theorem moveSeesKeysOfItsCycle : Obligations.MoveSeesKeysOfItsCycle := by
  intro s t ks a b c j hi hn hj ha hb h
  obtain ⟨s', hx, he⟩ := step_runsNext hn h
  have hi' : (s.withEnv s.env.afterKeys).inv = true := hi
  obtain ⟨u, hu, -, -, hmem, -⟩ := moveCopiesOneByte (afterRefresh (some ks) s) a b c (refresh_inv hi' (some ks))
    (.inr (selectsMapped_of_keySlot_address hj ha)) (.inl hb)
  obtain rfl : u = s' := Host.Outcome.next.inj (hu.symm.trans hx)
  calc t.mem.read b.toNat = u.mem.read b.toNat := by rw [(endCycle_frame he).1]
    _ = operandByte (afterRefresh (some ks) s) a := (hmem b.toNat).trans (if_pos ⟨hb, rfl⟩)
    _ = keySlot (afterRefresh (some ks) s) j := operandByte_of_keySlot_address ha
    _ = if h : j < ks.length then ks[j] else s.cfg.kbPad := (refreshFillsSlots _).1 ks j hi' hj

end Sys2Proof.Machine
end

section
/-! Faults (R154 to R156, R163): which causes a cycle can meet at its instruction, and that each keeps `ip` there. -/

namespace Sys2Proof.Machine

/-- R154, R156: the fatal causes of a cycle, each recording the address `ip` of the instruction it met. The other causes of R154
belong to reset. -/
inductive CycleFatal (ip : Word) : Fatal → Prop
  | fetch : CycleFatal ip (.fetchOob ip)
  | mem (role : Role) (a : Word) : CycleFatal ip (.memOob ip role a)
  | map (role : Role) (a : Word) : CycleFatal ip (.mapOob ip role a)
  | dump (start len : Word) : CycleFatal ip (.dumpOob ip start len)

theorem CycleFatal.code_bounds {ip : Word} {f : Fatal} (h : CycleFatal ip f) : 1 ≤ f.code ∧ f.code ≤ 4 := by
  cases h <;> simp [Fatal.code]

theorem CycleFatal.eq_cause {ip : Word} {f : Fatal} (h : CycleFatal ip f) :
    f = .fetchOob ip ∨ (∃ role a, f = .memOob ip role a) ∨ (∃ role a, f = .mapOob ip role a) ∨ ∃ b c, f = .dumpOob ip b c := by
  cases h with
  | fetch => exact .inl rfl
  | mem role a => exact .inr (.inl ⟨role, a, rfl⟩)
  | map role a => exact .inr (.inr (.inl ⟨role, a, rfl⟩))
  | dump start len => exact .inr (.inr (.inr ⟨start, len, rfl⟩))

theorem cycleFatal_of_memRead_raised {role : Role} {a : Word} {s s' : State} {f : Fatal}
    (h : memRead role a s = .raised f s') : CycleFatal s.ip f := by
  rcases memRead_raised_fatal h with rfl | rfl
  · exact .mem role a
  · exact .map role a

theorem cycleFatal_of_memWrite_raised {role : Role} {b : Word} {v : Byte} {s s' : State} {f : Fatal}
    (h : memWrite role b v s = .raised f s') : CycleFatal s.ip f := by
  rcases memWrite_raised_fatal h with rfl | rfl
  · exact .mem role b
  · exact .map role b

/-- A fault that ends a cycle reads back as the cause raised. -/
theorem eq_of_raiseFatal_run {f g : Fatal} {s : State} (h : (raiseFatal g s).run = .halted (.fault f)) : g = f :=
  HaltReason.fault.inj (RunState.halted.inj h)

/-- A MOVE that faults keeps `ip` (R94, R155): a source fault changes nothing, and a source read that completes keeps `ip` for a
destination fault to record. -/
theorem MoveCase.ip_and_cycleFatal {a b c : Word} {s t : State} {f : Fatal} (h : MoveCase a b c s t)
    (hr : s.run = .running) (ht : t.run = .halted (.fault f)) : t.ip = s.ip ∧ CycleFatal s.ip f := by
  cases h with
  | moved hread hwrite =>
    obtain ⟨-, -, hrun, -⟩ := hread.frame
    obtain ⟨-, -, hrun', -⟩ := hwrite.frame
    cases ht.symm.trans (hrun'.trans (hrun.trans hr))
  | sourceFault _ hf =>
    obtain rfl := eq_of_raiseFatal_run ht
    exact ⟨rfl, cycleFatal_of_memRead_raised hf⟩
  | destinationFault hread _ hf =>
    obtain rfl := eq_of_raiseFatal_run ht
    obtain ⟨-, hip, -⟩ := hread.frame
    exact ⟨hip, hip ▸ cycleFatal_of_memWrite_raised hf⟩

/-- An instruction that faults keeps `ip`, and its fault records that value (R155, R163). -/
theorem exec_ip_and_cycleFatal {i : Instr} {s t : State} {f : Fatal} (h : exec i s = .next t) (hr : s.run = .running)
    (ht : t.run = .halted (.fault f)) : t.ip = s.ip ∧ CycleFatal s.ip f := by
  cases i with
  | dbgtrap start len =>
    rcases Nat.lt_or_ge s.cfg.memSize (start.toNat + len.toNat) with hout | hin
    · cases h.symm.trans (exec_dbgtrap_outside hout)
      obtain rfl := eq_of_raiseFatal_run ht
      exact ⟨rfl, .dump start len⟩
    · cases h.symm.trans (exec_dbgtrap_inside hin)
      cases ht
  | move a b c => exact (execMove_cases h).ip_and_cycleFatal hr ht

/-- The end of a cycle raises no fault: one found there is the instruction's. -/
theorem eq_of_endCycle_fault {s t : State} {f : Fatal} (h : endCycle s = .next t) (ht : t.run = .halted (.fault f)) :
    t = s := by
  cases hr : s.run with
  | running => rcases endCycle_run_of_running h hr with hn | hn <;> cases ht.symm.trans hn
  | halted r => exact eq_of_endCycle_halted h hr

/-- A step that ends in a fault met it at the fetch or in the instruction; neither moves `ip` or presents (R155, R163). -/
theorem step_fault {s t : State} {f : Fatal} (h : step s = .next t) (ht : t.run = .halted (.fault f)) :
    t.ip = s.ip ∧ t.frames = s.frames ∧ CycleFatal s.ip f := by
  rcases step_fetchFault_or_runsNext h with ⟨keys, rfl⟩ | ⟨keys, i, s', hn, hx, he⟩
  · obtain rfl := eq_of_raiseFatal_run ht
    exact ⟨afterRefresh_ip keys s, afterRefresh_frames keys s, .fetch⟩
  · obtain rfl := eq_of_endCycle_fault he ht
    obtain ⟨hip, hf⟩ := exec_ip_and_cycleFatal hx ((afterRefresh_run keys s).trans hn.1) ht
    rw [afterRefresh_ip] at hip hf
    exact ⟨hip, (exec_frames hx).trans (afterRefresh_frames keys s), hf⟩

/-- Settles O21: the fetch and the instruction are all that raises a fault in a step, and every such cause records `ip`. -/
theorem faultLeavesInstructionPointer : Obligations.FaultLeavesInstructionPointer := by
  intro s t f h ht
  obtain ⟨hip, hframes, hf⟩ := step_fault h ht
  obtain ⟨hlo, hhi⟩ := hf.code_bounds
  exact ⟨hip, hframes, hlo, hhi, hf.eq_cause⟩

end Sys2Proof.Machine
end

section
/-! Reset (R177 to R180): the memory a launch loads, the invariant of its final state, and the first failure that ends it. -/

namespace Sys2Proof.Machine

/-- Both complete a byte sequence to a fixed length: sectors and short images with zero bytes, key slots with `KB_PAD`. -/
theorem fit_eq_slotBytes (n : Nat) (bs : List Byte) : fit n bs = slotBytes 0x00 n bs := by
  induction n generalizing bs with
  | zero => rfl
  | succ n ih => cases bs <;> rw [fit, slotBytes, ih]

theorem fit_getElem? {n k : Nat} (hk : k < n) (bs : List Byte) : (fit n bs)[k]? = some ((bs[k]?).getD 0x00) := by
  rw [fit_eq_slotBytes, slotBytes_getElem? _ hk]

/-- R178, D22: loaded memory is the image, with zero bytes after it. -/
theorem launchLoaded_mem_read (l : Launch) (k : Nat) : (launchLoaded l).mem.read k = (l.image[k]?).getD 0x00 := by
  have hwf : Memory.wf [] = true := rfl
  exact (Memory.read_writeBlock hwf 0 l.image k).trans (if_pos (Nat.zero_le k))

theorem launchLoaded_mem_readBlock (l : Launch) (n : Nat) : (launchLoaded l).mem.readBlock 0 n = fit n l.image := by
  apply List.ext_getElem?
  intro k
  by_cases hk : k < n
  · rw [Memory.readBlock_getElem? _ hk, fit_getElem? hk, Nat.zero_add, launchLoaded_mem_read]
  · rw [List.getElem?_eq_none (by simpa using hk), List.getElem?_eq_none (by simpa using hk)]

/-- R179: the entry word is the first eight bytes of the image, completed with zero bytes. -/
theorem launchLoaded_mem_word_toNat (l : Launch) : ((launchLoaded l).mem.word 0).toNat = leNat (fit 8 l.image) := by
  rw [Memory.word, launchLoaded_mem_readBlock, word64_toNat (fit_length 8 _)]

theorem launchBlank_inv {l : Launch} (hd : l.disk0.wf l.cfg.sectorSize = true) : (launchBlank l).inv = true :=
  (inv_iff _).2 ⟨rfl, rfl, rfl, rfl, hd⟩

/-- An image that fits lies inside main memory. -/
theorem launchLoaded_inv {l : Launch} (hd : l.disk0.wf l.cfg.sectorSize = true) (hl : l.image.length ≤ l.cfg.memSize) :
    (launchLoaded l).inv = true :=
  inv_withMem (launchBlank_inv hd) (Memory.wf_writeBlock rfl _ _)
    (Memory.within_writeBlock rfl 0 _ ((Nat.zero_add _).trans_le hl))

/-- R177 to R179: a launch whose image loads ends in ENTRY_OOB or Running, in the state the load left. -/
theorem launch_of_image_fits {l : Launch} (h : l.hostReady = true) (hl : l.image.length ≤ l.cfg.memSize) :
    launch l = raiseFatal .entryOob (launchLoaded l) ∨
    launch l = (launchLoaded l).withIp ((launchLoaded l).mem.word 0) := by
  rcases Nat.lt_or_ge l.cfg.memSize 8 with hm | hm
  · exact .inl (launch_entryOob h hl hm)
  · exact .inr (launch_running h hl hm)

/-- Settles O55: a launch ends in the blank state or, when the image fits, in the loaded one, but for `ip` and the run state. -/
theorem launchHasInvariant : Obligations.LaunchHasInvariant := by
  intro l hd
  cases h : l.hostReady with
  | false => rw [launch_hostInit h, inv_raiseFatal, launchBlank_inv hd]
  | true =>
    rcases Nat.lt_or_ge l.cfg.memSize l.image.length with hl | hl
    · rw [launch_imageTooLarge h hl, inv_raiseFatal, launchBlank_inv hd]
    · rcases launch_of_image_fits h hl with he | he
      · rw [he, inv_raiseFatal, launchLoaded_inv hd hl]
      · rw [he, inv_withIp, launchLoaded_inv hd hl]

theorem launch_mem_of_image_fits {l : Launch} (h : l.hostReady = true) (hl : l.image.length ≤ l.cfg.memSize) :
    (launch l).mem = (launchLoaded l).mem := by
  rcases launch_of_image_fits h hl with he | he <;> rw [he] <;> rfl

theorem launch_run_ne_imageTooLarge {l : Launch} (h : l.hostReady = true) (hl : l.image.length ≤ l.cfg.memSize) (n : Nat) :
    (launch l).run ≠ .halted (.fault (.imageTooLarge n)) := by
  rcases launch_of_image_fits h hl with he | he
  · intro hr
    cases eq_of_raiseFatal_run (he ▸ hr)
  · rw [he]
    exact nofun

theorem launch_run_imageTooLarge {l : Launch} (h : l.hostReady = true) (hl : l.cfg.memSize < l.image.length) :
    (launch l).run = .halted (.fault (.imageTooLarge l.image.length)) := by
  rw [launch_imageTooLarge h hl, raiseFatal_run]

/-- Settles O57: an image that fits is read back from the loaded memory; a longer one leaves a machine that is halted. -/
theorem imageLoadsVerbatim : Obligations.ImageLoadsVerbatim := by
  intro l h
  refine ⟨fun hl => ⟨launch_run_ne_imageTooLarge h hl, fun k hk => ?_⟩, fun hl => ?_⟩
  · rw [launch_mem_of_image_fits h hl, launchLoaded_mem_read, List.getElem?_eq_getElem hk, Option.getD_some]
  · have hrun := launch_run_imageTooLarge h hl
    exact ⟨hrun, haltedMachineHasNoStep _ _ hrun⟩

/-- Settles O58: each failure raises its own fault; without one the launch is the loaded state at the entry word. -/
theorem launchStartsAtEntryWord : Obligations.LaunchStartsAtEntryWord := by
  intro l
  refine ⟨fun h => ?_, launch_run_imageTooLarge, fun h hl hm => ?_, fun h hl hm => ?_⟩
  · rw [launch_hostInit h, raiseFatal_run]
  · rw [launch_entryOob h hl hm, raiseFatal_run]
  · rw [launch_running h hl hm]
    exact ⟨rfl, launchLoaded_mem_word_toNat l, rfl, rfl, rfl⟩

end Sys2Proof.Machine
end

section
/-! A storage error (R118, R123): each path of a transaction that ends in one, as an equation. -/

namespace Sys2Proof.Machine

/-- R118, 90_conflicts.md C12: on the read path a storage error precedes the range test. -/
theorem diskTransaction_read_error {s : State} {code : Nat} {torn : List Byte} (hd : reqDirection s = 0)
    (ha : s.env.diskAnswer = .returns (.error code torn)) :
    diskTransaction s = .done (errorStatus code) (s.withEnv s.env.afterDisk) := by
  simp only [diskTransaction, if_pos hd, diskReadPath, ha]

/-- R123: a failed write leaves in the sector what the storage tore it to. -/
theorem diskTransaction_write_error {s : State} {code : Nat} {torn : List Byte} (hd : reqDirection s ≠ 0)
    (hm : (reqAddr s).toNat + s.cfg.sectorSize ≤ s.cfg.memSize) (ha : s.env.diskAnswer = .returns (.error code torn)) :
    diskTransaction s = .done (errorStatus code)
      ((s.withEnv s.env.afterDisk).withDisk (s.disk.write s.cfg.sectorSize (reqSector s).toNat torn)) := by
  rw [diskTransaction, if_neg hd]
  simp [diskWritePath, ha, (reqInMain_iff s).2 hm]

/-- Whole-sector data is what its sector then holds. -/
theorem Disk.read_write_same {d : Disk} {size : Nat} (h : d.wf size = true) (sector : Nat) {data : List Byte}
    (hl : data.length = size) : (d.write size sector data).read size sector = data := by
  rw [Disk.read_write h, if_pos rfl, ← hl, fit_of_length]

/-- Settles O33: the read path looks at the storage's answer before the range. -/
theorem diskReadErrorComesFirst : Obligations.DiskReadErrorComesFirst := by
  intro s code torn hd ha
  exact diskTransaction_read_error hd ha

/-- Settles O36: the torn bytes are a whole sector, so they are read back as they are, and no other sector is written. -/
theorem diskWriteErrorTearsSector : Obligations.DiskWriteErrorTearsSector := by
  intro s code torn hi hd hm ha hl
  obtain ⟨-, -, -, -, hdisk⟩ := (inv_iff s).1 hi
  exact ⟨_, diskTransaction_write_error hd hm ha, Disk.read_write_same hdisk _ hl,
    fun n hn => (Disk.read_write hdisk _ _ n).trans (if_neg hn)⟩

end Sys2Proof.Machine
end

section
/-! Host calls that never return (R171): the operation each one stops, and what that makes of the MOVE and of the step. -/

namespace Sys2Proof.Machine

theorem step_keys_hang {s : State} (hr : s.run = .running) (hk : s.env.keysAnswer = .hangs) :
    step s = .fault (.neverReturns .pollKeys) := by
  have hbegin : beginCycle s = .stuck (.neverReturns .pollKeys) := by
    simp only [beginCycle, pollAndRefresh, hk, Res.bind]
  simp only [step, hr, hbegin]

theorem endCycle_present_hangs {s : State} (hr : s.run = .running) (hp : s.env.presentAnswer = .hangs) :
    endCycle s = .fault (.neverReturns .present) := by
  simp only [endCycle, hr, hp]

theorem endCycle_isOpen_hangs {s : State} (hr : s.run = .running) (hp : s.env.presentAnswer = .returns ())
    (ho : s.env.afterPresent.openAnswer = .hangs) : endCycle s = .fault (.neverReturns .isOpen) := by
  simp only [endCycle, hr, hp, ho]

theorem diskTransaction_read_hangs {s : State} (hd : reqDirection s = 0) (ha : s.env.diskAnswer = .hangs) :
    diskTransaction s = .stuck (.neverReturns .diskRead) := by
  simp only [diskTransaction, if_pos hd, diskReadPath, ha]

/-- R122: the write path reaches the storage only where the range lies inside main memory. -/
theorem diskTransaction_write_hangs {s : State} (hd : reqDirection s ≠ 0)
    (hm : (reqAddr s).toNat + s.cfg.sectorSize ≤ s.cfg.memSize) (ha : s.env.diskAnswer = .hangs) :
    diskTransaction s = .stuck (.neverReturns .diskWrite) := by
  rw [diskTransaction, if_neg hd]
  simp [diskWritePath, ha, (reqInMain_iff s).2 hm]

/-- A write at `MAP_START` is stuck with its transaction. -/
theorem memWrite_stuck_of_diskTransaction {role : Role} {b : Word} {v : Byte} {w : Fault} {s : State}
    (hb : b = s.cfg.mapStart) (hd : diskTransaction (storeOff0 v s) = .stuck w) : memWrite role b v s = .stuck w := by
  rw [hb, memWrite_mapStart, hd]
  rfl

theorem exec_move_source_stuck {a b c : Word} {w : Fault} {s : State} (hr : memRead .source a s = .stuck w) :
    exec (.move a b c) s = .fault w :=
  Res.outcome_eq_fault.2 (Res.bind_eq_stuck.2 (.inl hr))

theorem exec_move_destination_stuck {a b c : Word} {v : Byte} {w : Fault} {s s1 : State}
    (hr : memRead .source a s = .done v s1) (hw : memWrite .destination b v s1 = .stuck w) :
    exec (.move a b c) s = .fault w :=
  Res.outcome_eq_fault.2 (Res.bind_eq_stuck.2 (.inr ⟨v, s1, hr, Res.bind_eq_stuck.2 (.inl hw)⟩))

/-- A MOVE whose operands are both `MAP_START` is stuck with its second transaction, which runs in the state the first left. -/
theorem exec_move_second_transaction_stuck {c : Word} {v : Byte} {w : Fault} {s s1 : State}
    (hd1 : diskTransaction s = .done v s1) (hd2 : diskTransaction (storeOff0 v s1) = .stuck w) :
    exec (.move s.cfg.mapStart s.cfg.mapStart c) s = .fault w := by
  have hcfg : s1.cfg = s.cfg := (diskTransaction_cases hd1).frame.1
  exact exec_move_destination_stuck ((memRead_mapStart .source s).trans hd1)
    (memWrite_stuck_of_diskTransaction (by rw [hcfg]) hd2)

theorem step_of_exec_fault {s : State} {keys : Option (List Byte)} {i : Instr} {w : Fault} (hn : runsNext s keys i)
    (hx : exec i (afterRefresh keys s) = .fault w) : step s = .fault w := by
  rw [stepRunsDecodedInstruction s keys i hn, hx]

theorem step_of_exec_next {s t : State} {keys : Option (List Byte)} {i : Instr} (hn : runsNext s keys i)
    (hx : exec i (afterRefresh keys s) = .next t) : step s = endCycle t := by
  rw [stepRunsDecodedInstruction s keys i hn, hx]

/-- Settles O11: each call stops the operation that makes it, and an operation that is stuck stops the MOVE or the cycle that
needs it. -/
theorem hostCallThatHangsIsStuck : Obligations.HostCallThatHangsIsStuck := by
  intro s
  refine ⟨step_keys_hang, endCycle_present_hangs, endCycle_isOpen_hangs, diskTransaction_read_hangs,
    diskTransaction_write_hangs, ?fromTrigger, ?toTrigger, ?triggerToTrigger, ?instruction, ?endOfCycle⟩
  case fromTrigger =>
    intro b c w hd
    exact exec_move_source_stuck ((memRead_mapStart .source s).trans hd)
  case toTrigger =>
    intro a c w ha hd
    exact exec_move_destination_stuck (memRead_selectsByte ha) (memWrite_stuck_of_diskTransaction rfl hd)
  case triggerToTrigger =>
    intro c v s1 w hd1 hd2
    exact exec_move_second_transaction_stuck hd1 hd2
  case instruction =>
    intro keys i w hn hx
    exact step_of_exec_fault hn hx
  case endOfCycle =>
    intro keys i t w hn hx he
    exact (step_of_exec_next hn hx).trans he

end Sys2Proof.Machine
end

section
/-! Little-endian values in memory (R42, R77, R134): a word stored byte by byte, two instructions written out, and a pixel. -/

namespace Sys2Proof.Machine

/-- Settles O44: the eight bytes are read back as a block, and assemble to the word they came from. -/
theorem wordWrittenAsBytesReadsBack : Obligations.WordWrittenAsBytesReadsBack := by
  intro m i w h
  have hback : (m.writeBlock i (bytes8 w)).readBlock i 8 = bytes8 w := by
    simpa only [bytes8_length] using Memory.readBlock_writeBlock h i (bytes8 w)
  rw [Memory.word, hback, word64_bytes8]

/-- R134: the value of a pixel is the little-endian sum of the four bytes of its frame. -/
theorem Frame.pixel_toNat (f : Frame) (i : Nat) :
    (f.pixel i).toNat = (f.pixels.read (4 * i)).toNat + (f.pixels.read (4 * i + 1)).toNat * 2 ^ 8 +
      (f.pixels.read (4 * i + 2)).toNat * 2 ^ 16 + (f.pixels.read (4 * i + 3)).toNat * 2 ^ 24 := by
  have hlt : leNat (f.pixels.readBlock (4 * i) 4) < 2 ^ 32 := by
    simpa using leNat_lt (f.pixels.readBlock (4 * i) 4)
  rw [pixel, BitVec.toNat_ofNat, Nat.mod_eq_of_lt hlt]
  simp only [Memory.readBlock, leNat]
  ring

/-- Settles O47: the four bytes of a pixel of the display lie inside the framebuffer, where the frame holds the bytes of `map`. -/
theorem pixelIsLittleEndian : Obligations.PixelIsLittleEndian := by
  intro s i hi
  have hbyte (k : Nat) (hk : k < 4) : (frameOf s).pixels.read (4 * i + k) = s.map.read (s.cfg.fbBase + 4 * i + k) := by
    have hin : 4 * i + k < s.cfg.fbSize := by
      unfold Config.fbSize
      omega
    obtain ⟨-, -, hread⟩ := snapshotIsFramebuffer s (4 * i + k)
    rw [hread, if_pos hin, Nat.add_assoc]
  have hfirst : (frameOf s).pixels.read (4 * i) = s.map.read (s.cfg.fbBase + 4 * i) := hbyte 0 (by decide)
  rw [Frame.pixel_toNat, hfirst, hbyte 1 (by decide), hbyte 2 (by decide), hbyte 3 (by decide)]

/-- Settles O6: the bytes are the three words of each instruction, and only the second has the sentinel as its first. -/
theorem workedEncodingsDecode : Obligations.WorkedEncodingsDecode :=
  ⟨decoderLooksOnlyAtSource 100 101 0, decoderLooksOnlyAtSource sentinel 0x400 4⟩

end Sys2Proof.Machine
end

section
/-! The dump range of DBGTRAP (R106), and the machine right after reset (R40). -/

namespace Sys2Proof.Machine

/-- Settles O28: the range test fails. -/
theorem debugTrapOutsideMemoryFaults : Obligations.DebugTrapOutsideMemoryFaults := by
  intro s b c h
  exact exec_dbgtrap_outside h

/-- The launch with the parameters of reset, an empty image and an empty store, whose environment foresees nothing. -/
def resetLaunch : Launch where
  cfg := Config.atReset
  hostReady := true
  image := []
  disk0 := []
  env := Env.free

/-- The machine of reset is that of a launch: zero-filled memory holds the entry word 0 (R40, R179). -/
theorem reset_eq_launch : State.reset = launch resetLaunch := by
  have hentry : (launchLoaded resetLaunch).mem.word 0 = 0 := by decide
  rw [launch_running rfl (by decide) (by decide), hentry]
  rfl

/-- Settles O54: reset is a launch, and the empty store has whole sectors. -/
theorem resetHasInvariant : Obligations.ResetHasInvariant := by
  rw [Obligations.ResetHasInvariant, reset_eq_launch]
  exact launchHasInvariant resetLaunch rfl

/-- Settles O59: nothing is listed in the memories of reset, so every byte and the entry word are zero. -/
theorem resetValues : Obligations.ResetValues := by
  have hentry : State.reset.ip = State.reset.mem.word 0 := by decide
  exact ⟨rfl, hentry, fun _ => rfl, fun _ => rfl, rfl, reset_eq_launch⟩

end Sys2Proof.Machine
end
